-- ==== Sys2Proof/Syntax.lean ====
section
/-! DEFINITION. The commands: one constructor per row of spec/opcode_table.json (R73). A command carries no
register number, immediate, address or length (R71). -/

namespace Sys2Proof

inductive Instr where
  /-- Unpack `BYTE` into `BITS` (R92). -/
  | tobits
  /-- Pack `BITS` into `BYTE` (R94). -/
  | frombits
  /-- Compute the capacity and test `PLEN` against it (R105). -/
  | capchk
  /-- Hide `MSG` in the image (R119). -/
  | encode
  /-- Recover a message from the image into `OUT` (R140). -/
  | decode
  deriving DecidableEq, Repr

end Sys2Proof
end

