-- ==== Sys2Proof/Word.lean ====
section
/-! DEFINITION. The value types of the machine: bytes, bits, texts. -/

namespace Sys2Proof

/-- `u8` (R17): a channel value, a payload byte, the `BYTE` register. -/
abbrev Byte := BitVec 8

/-- The word a host writes to `CMD` (R70). -/
abbrev CmdWord := BitVec 8

/-- `Seq Bit` of length exactly 8 (R24): the index is the position in the sequence, not a bit weight.
A bit is a `Bool`, 1 being `true`. -/
abbrev Bits8 := Vector Bool 8

/-- One character of text (R6): the default 8-bit code unit. DESIGN CHOICE, log entry 2. -/
abbrev TextChar := BitVec 8

/-- `Text = Seq Char` (R6). -/
abbrev Text := List TextChar

end Sys2Proof
end

