-- ==== Sys2Proof/WellFormed.lean ====
section
/-! DEFINITION. Which command words and which commands are well formed. A command has no operand (R71), so every term
of `Instr` is well formed; what can be ill formed is a command word: its `ZERO` field or its `OP` field (R70, R74). -/

namespace Sys2Proof

/-- Bits `[7:3]` are zero (R70). -/
def wellFormedZero (w : CmdWord) : Bool := w.extractLsb' 3 5 == 0

/-- `OP` is none of `000`, `110`, `111` (R74). -/
def wellFormedOp (w : CmdWord) : Bool :=
  match (w.extractLsb' 0 3).toNat with
  | 0 => false
  | 6 => false
  | 7 => false
  | _ => true

/-- A word with a command of its own (R73, R74). -/
def wellFormedWord (w : CmdWord) : Bool := wellFormedZero w && wellFormedOp w

/-- Every command is well formed: there is no field that could hold a bad value (R71). -/
def Instr.wellFormed (i : Instr) : Bool :=
  match i with
  | .tobits => true
  | .frombits => true
  | .capchk => true
  | .encode => true
  | .decode => true

end Sys2Proof
end

