-- ==== Sys2Proof/Decode.lean ====
section
/-! DEFINITION. Command decoding (R70, R73, R74, R77), and the encoder written from the same table. -/

namespace Sys2Proof

/-- Why a word is illegal (R74). -/
inductive DecodeError where
  /-- Bits `[7:3]` are not zero. -/
  | zeroFieldSet
  /-- `OP` is `000`, `110` or `111`. -/
  | reservedOp
  deriving DecidableEq, Repr

/-- Bits `[7:3]` of a command word (R70). -/
def zeroField (w : CmdWord) : BitVec 5 := w.extractLsb' 3 5

/-- Bits `[2:0]` of a command word (R70). -/
def opField (w : CmdWord) : BitVec 3 := w.extractLsb' 0 3

/-- The operation of each value of `OP` (R73); the three others are reserved (R74). -/
def decodeOp (op : BitVec 3) : Except DecodeError Instr :=
  match op.toNat with
  | 1 => .ok .tobits
  | 2 => .ok .frombits
  | 3 => .ok .capchk
  | 4 => .ok .encode
  | 5 => .ok .decode
  | _ => .error .reservedOp

/-- `decode` (R77): total, and a function of the word alone. -/
def decode (w : CmdWord) : Except DecodeError Instr :=
  if zeroField w = 0 then decodeOp (opField w) else .error .zeroFieldSet

/-- The `OP` field of each command (R73). -/
def encodeOp (i : Instr) : BitVec 3 :=
  match i with
  | .tobits => 0b001
  | .frombits => 0b010
  | .capchk => 0b011
  | .encode => 0b100
  | .decode => 0b101

/-- The word of each command: `ZERO` above `OP` (R70). -/
def encode (i : Instr) : CmdWord := (0b00000 : BitVec 5) ++ encodeOp i

/-- The command word an opcode-table row's `nbits` bits hold: commands are one byte long (R70), so it is the first byte,
and a bit the row does not give is 0. -/
def tableWord (nbits w : Nat) : CmdWord := BitVec.ofNat 8 (w % 2 ^ nbits)

/-- What the decoder reads from a word numbered as spec/opcode_table.json numbers it. -/
def decodeTableWord (nbits w : Nat) : Option Instr :=
  match decode (tableWord nbits w) with
  | .ok i => some i
  | .error _ => none

end Sys2Proof
end

