-- ==== Sys2Proof/Config.lean ====
section
/-! DEFINITION. What an instance of the hardware fixes (R185, 00_scope.md section 4): the dimension width, the
sentinel and the cipher collaborator's port. None of it is state and no command or host action changes it. -/

namespace Sys2Proof

/-- `DIMW`, the width in bits of an image dimension (R5), at its default. DESIGN CHOICE, log entry 1. -/
abbrev Config.dimw : Nat := 16

/-- `CHANNELS`, channel values per pixel (R4). -/
abbrev Config.channels : Nat := 3

/-- `CHANNEL_BITS`, bits per channel value (R4): the width of `Byte`. -/
abbrev Config.channelBits : Nat := 8

/-- The type of `WIDTH` and `HEIGHT` (R27). -/
abbrev Dim := BitVec Config.dimw

/-- The type of `PLEN` and `CAP` (R25, R26). -/
abbrev Wide := BitVec (2 * Config.dimw)

/-- A key, an opaque capability (R8): the handle that names it and the key size in bits it declares.
The engine looks at the size only, and only of the decryption key. DESIGN CHOICE, log entry 4. -/
structure Key where
  handle : Nat
  sizeBits : Nat
  deriving DecidableEq, Repr, Inhabited

/-- The open parameters that come with the cipher and the sentinel (R7, R9, R10). The meanings of ENCODE and DECODE
are written over any such port; the machine takes `Config.cipher`. -/
structure CipherPort where
  /-- The first character of `SENTINEL`, which is non-empty (R7). -/
  sentinelHead : TextChar
  /-- The rest of `SENTINEL`. -/
  sentinelTail : Text
  /-- The bytes `Encrypt` returns (R9) on the call of this number: each call is a draw of its own (R12). -/
  encrypt : Nat → Key → Text → List Byte
  /-- `Decrypt` (R10), a total function of key and block (R12, R13). -/
  decrypt : Key → List Byte → Text
  deriving Inhabited

/-- `SENTINEL` (R7). -/
def CipherPort.sentinel (P : CipherPort) : Text := P.sentinelHead :: P.sentinelTail

/-- The sentinel's first character; the source never prints the sentinel. Log entry 3. -/
opaque Config.sentinelHead : TextChar

/-- The rest of the sentinel. Log entry 3. -/
opaque Config.sentinelTail : Text

/-- The free value of an `Encrypt` call, by the call's number. Log entry 5. -/
opaque Config.encryptDraw : Nat → Key → Text → List Byte

/-- What `Decrypt` answers. Log entry 6. -/
opaque Config.decryptText : Key → List Byte → Text

/-- The cipher port of this instance of the hardware. -/
def Config.cipher : CipherPort :=
  { sentinelHead := Config.sentinelHead
    sentinelTail := Config.sentinelTail
    encrypt := Config.encryptDraw
    decrypt := Config.decryptText }

end Sys2Proof
end

