-- ==== Sys2Proof/Machine/HostSyntax.lean ====
section
/-! DEFINITION. What the host can say to the machine (R33, R180): the register names, the values a register can hold,
the host's actions. -/

namespace Sys2Proof.Machine

/-- The twelve registers (10_state.md section 1). -/
inductive Reg where
  | cmd
  | status
  | byte
  | bits
  | plen
  | cap
  | width
  | height
  | ekey
  | dkey
  | msg
  | out
  deriving DecidableEq, Repr

/-- A value the host writes to a register or reads from one. -/
inductive HostValue where
  /-- An 8-bit word: `CMD`, `STATUS`, `BYTE`, a cell of IMG. -/
  | word (w : Byte)
  /-- A bit sequence: `BITS`. -/
  | bits (b : Bits8)
  /-- A number: `PLEN`, `CAP`, `WIDTH`, `HEIGHT`. -/
  | num (n : Nat)
  /-- A text: `MSG`, `OUT`. -/
  | text (t : Text)
  /-- A key: `EKEY`, `DKEY`. -/
  | key (k : Key)
  deriving DecidableEq, Repr

/-- The host's actions: the rows of R33 and the reset of R180. -/
inductive HostAction where
  /-- `HostWrite(r, v)`; with `CMD` for `r` it issues the command word `v`. -/
  | write (r : Reg) (v : HostValue)
  /-- `HostRead(r)`. -/
  | read (r : Reg)
  /-- `HostAttachImage(W, H, data)`. -/
  | attach (w h : Nat) (data : List Byte)
  /-- `HostImgRead(a)`. -/
  | imgRead (a : Nat)
  /-- `HostImgWrite(a, v)`. -/
  | imgWrite (a : Nat) (v : Byte)
  /-- Reset (R180). -/
  | reset
  deriving DecidableEq, Repr

end Sys2Proof.Machine
end

