-- ==== Sys2Proof/Machine/State.lean ====
section
/-! DEFINITION. The machine's state (10_state.md), its reset value (R44), and why a step can stop. -/

namespace Sys2Proof.Machine

/-- The synchronous exceptions (R150). Raising one is a next state, never a fault of the model (R160). -/
inductive Err where
  /-- ENCODE: the message contains the sentinel (R151). -/
  | forbiddenSubstring
  /-- ENCODE, CAPCHK: the payload is longer than the capacity (R152). -/
  | payloadTooLarge
  /-- DECODE: no whole block decrypts to the sentinel (R153). -/
  | sentinelNotFound
  /-- A word written to `CMD` that is no command (R154). -/
  | illegalCommand
  /-- ENCODE, DECODE: an unwritten key; DECODE: a key of size zero (R155). -/
  | badOperand
  deriving DecidableEq, Repr

/-- Why the machine stops. -/
inductive Fault where
  /-- Raised by an engine access to IMG at `a`, at or above the number of cells, an address that does not exist (R54).
  Safe: the machine stops where the spec gives no access; the rules never generate one. Log entry 13. -/
  | imgAddress (a : Nat)
  deriving DecidableEq, Repr

/-- Why a step has no meaning. -/
inductive Refusal where
  /-- Raised by an arm of `exec` whose instruction has no meaning yet. Safe. No arm does. -/
  | notModelled (mnemonic : String)
  /-- Raised by a host write whose value is not of the register's type (R33). Safe. Log entry 10. -/
  | hostValueType (r : Reg)
  /-- Raised by a host read of `CMD`, `EKEY` or `DKEY`, which is not possible (R33). Safe. Log entry 10. -/
  | hostNoSuchRead (r : Reg)
  /-- Raised by an attach whose dimensions are too wide or whose data has the wrong length (R33, U15). Safe. Log entry 10. -/
  | hostAttachShape
  /-- Raised by a host access to a cell that does not exist (R33, U15). Safe. Log entry 10. -/
  | hostImgAddress (a : Nat)
  deriving DecidableEq, Repr

/-- IMG's cells as address and byte pairs, addresses rising, no pair equal to what an unlisted cell holds.
Log entry 12. -/
abbrev Memory := List Host.Cell

/-- Everything the spec gives the machine (10_state.md section 1), and three fields of the model's own: the host's
actions to come, the value the host read last, the number of `Encrypt` calls made. -/
structure State where
  /-- `STATUS` (R22). -/
  status : BitVec 8
  /-- `BYTE` (R23). -/
  byte : Byte
  /-- `BITS` (R24). -/
  bits : Bits8
  /-- `PLEN` (R25). -/
  plen : Wide
  /-- `CAP` (R26). -/
  cap : Wide
  /-- `WIDTH` (R27). -/
  width : Dim
  /-- `HEIGHT` (R27). -/
  height : Dim
  /-- `EKEY` (R28). -/
  ekey : Option Key
  /-- `DKEY` (R28). -/
  dkey : Option Key
  /-- `MSG` (R29). -/
  msg : Text
  /-- `OUT` (R30). -/
  out : Text
  /-- IMG (R32). -/
  img : Memory
  /-- The host's actions to come, oldest first: the host is an agent beside the engine (R33, R80). Log entry 9. -/
  pending : List HostAction
  /-- What the host's last read returned (R33). Log entry 11. -/
  reply : Option HostValue
  /-- The number of `Encrypt` calls made: it numbers the draws (R12). Log entry 5. -/
  draws : Nat
  deriving DecidableEq, Repr

/-- The state after reset (R44, R180); the model's own three fields at the values of log entries 5, 9 and 11. -/
def State.reset : State :=
  { status := 0x00
    byte := 0x00
    bits := #v[false, false, false, false, false, false, false, false]
    plen := 0
    cap := 0
    width := 0
    height := 0
    ekey := none
    dkey := none
    msg := []
    out := []
    img := []
    pending := []
    reply := none
    draws := 0 }

end Sys2Proof.Machine
end

