-- ==== Sys2Proof/Machine/Flags.lean ====
section
/-! DEFINITION. The `STATUS` word (R22) and the error codes (R150). `STATUS` is the only flag state and no command
reads it. -/

namespace Sys2Proof.Machine

/-- `STATUS.CODE` of each error (R150). -/
def errCode (e : Err) : BitVec 8 :=
  match e with
  | .forbiddenSubstring => 1
  | .payloadTooLarge => 2
  | .sentinelNotFound => 3
  | .illegalCommand => 4
  | .badOperand => 5

/-- `STATE = IDLE`, `CODE = 0` (R22). -/
def statusIdle : BitVec 8 := 0x00

/-- `STATE = OK`, `CODE = 0` (R22). -/
def statusOk : BitVec 8 := 0x01

/-- `(code(E) << 4) | 0x02` (R160): `STATE = ERROR` and the code. -/
def statusError (e : Err) : BitVec 8 := errCode e <<< 4 ||| 0x02

/-- `STATUS.STATE`, bits `[1:0]` (R22). -/
def statusState (w : BitVec 8) : BitVec 2 := w.extractLsb' 0 2

/-- `STATUS.CODE`, bits `[6:4]` (R22). -/
def statusCode (w : BitVec 8) : BitVec 3 := w.extractLsb' 4 3

/-- The seven values `STATUS` ever holds (R22). -/
def legalStatus (w : BitVec 8) : Bool :=
  [0x00, 0x01, 0x12, 0x22, 0x32, 0x42, 0x52].elem w

end Sys2Proof.Machine
end

