-- ==== Sys2Proof/Machine/Operands.lean ====
section
/-! DEFINITION. Where the commands find their operands (R78): the image's dimensions, the sizes derived from them
(R100 to R103), the block size of a key (R8), the containment test on texts (R19), the addresses of the image's
cells (R51, R52). All arithmetic is on exact naturals (R17, R104). -/

namespace Sys2Proof.Machine

/-- `ceil(a / b)` for `b > 0` (R17). -/
def ceilDiv (a b : Nat) : Nat := (a + b - 1) / b

/-- `bit_capacity(W, H)`, `N` (R100). -/
def bitCapacity (w h : Nat) : Nat := w * h * Config.channels

/-- `capacity_bytes(W, H)` (R101). -/
def capacityBytes (w h : Nat) : Nat := bitCapacity w h / 8

/-- `fits(W, H, L)` (R102). -/
def fits (w h len : Nat) : Bool := decide (len ≤ capacityBytes w h)

/-- `N` of the attached image: the number of IMG's cells (R32, R50). -/
def State.imgSize (s : State) : Nat := bitCapacity s.width.toNat s.height.toNat

/-- `cap` of the attached image (R101). -/
def State.capacity (s : State) : Nat := capacityBytes s.width.toNat s.height.toNat

/-- `BlockSize(k)`, in bytes (R8, R134). -/
def blockSize (k : Key) : Nat := ceilDiv k.sizeBits 8

/-- `contains(hay, needle)`: the needle stands somewhere in the hay, character by character (R19). -/
def containsText : Text → Text → Bool
  | [], needle => needle.isPrefixOf []
  | c :: hay, needle => needle.isPrefixOf (c :: hay) || containsText hay needle

/-- The address of channel `k` of the pixel in row `r` and column `c` of an image of width `w` (R51). -/
def cellAddress (w r c k : Nat) : Nat := (r * w + c) * Config.channels + k

/-- The row, column and channel of the cell at an address (R51), for a width of at least 1. -/
def cellPosition (w a : Nat) : Nat × Nat × Nat :=
  (a / (Config.channels * w), a / Config.channels % w, a % Config.channels)

/-- The cells in traversal order: rows, then the pixels of a row, then the channels of a pixel (R52). -/
def traversal (w h : Nat) : List Nat :=
  (List.range h).flatMap fun r =>
    (List.range w).flatMap fun c =>
      (List.range Config.channels).map fun k => cellAddress w r c k

end Sys2Proof.Machine
end

