-- ==== Sys2Proof/Machine/Ops.lean ====
section
/-! DEFINITION. The named operations: memory, registers, a command's completion and its exceptions, the cipher's
`Encrypt` call, the host's next action. -/

namespace Sys2Proof.Machine

/-- What an unlisted cell holds. Every cell of an attached image is given a value by the attach (R33), so this is a
way of writing memory down and no choice of contents. Log entry 12. -/
def unlistedByte : Byte := 0x00

/-- The byte at an address of a memory. -/
def Memory.read : Memory → Nat → Byte
  | [], _ => unlistedByte
  | (b, v) :: m, a => if a = b then v else Memory.read m a

/-- A memory with one byte changed, in canonical form. -/
def Memory.write : Memory → Nat → Byte → Memory
  | [], a, v => if v = unlistedByte then [] else [(a, v)]
  | (b, w) :: m, a, v =>
    if a < b then
      if v = unlistedByte then (b, w) :: m else (a, v) :: (b, w) :: m
    else if a = b then
      if v = unlistedByte then m else (a, v) :: m
    else (b, w) :: Memory.write m a v

/-- Canonical form from an address on: addresses rise, and no entry holds the unlisted byte. -/
def Memory.wfFrom : Nat → Memory → Bool
  | _, [] => true
  | lo, (a, v) :: m => decide (lo ≤ a) && !decide (v = unlistedByte) && Memory.wfFrom (a + 1) m

/-- Canonical form. -/
def Memory.wf (m : Memory) : Bool := Memory.wfFrom 0 m

/-- No listed cell at or above `n`: IMG has exactly `n` cells (R34). -/
def Memory.below (n : Nat) (m : Memory) : Bool := m.all fun c => decide (c.1 < n)

/-- The memory that holds the given bytes at an address and the addresses after it. -/
def Memory.ofBytes : List Byte → Nat → Memory
  | [], _ => []
  | v :: vs, a =>
    if v = unlistedByte then Memory.ofBytes vs (a + 1) else (a, v) :: Memory.ofBytes vs (a + 1)

/-- `STATUS <- v` (R22). -/
def State.setStatus (s : State) (v : BitVec 8) : State := { s with status := v }
/-- `BYTE <- v` (R23). -/
def State.setByte (s : State) (v : Byte) : State := { s with byte := v }
/-- `BITS <- v` (R24). -/
def State.setBits (s : State) (v : Bits8) : State := { s with bits := v }
/-- `PLEN <- v` (R25). -/
def State.setPlen (s : State) (v : Wide) : State := { s with plen := v }
/-- `CAP <- v` (R26). -/
def State.setCap (s : State) (v : Wide) : State := { s with cap := v }
/-- `EKEY <- some k` (R28). -/
def State.setEkey (s : State) (k : Key) : State := { s with ekey := some k }
/-- `DKEY <- some k` (R28). -/
def State.setDkey (s : State) (k : Key) : State := { s with dkey := some k }
/-- `MSG <- t` (R29). -/
def State.setMsg (s : State) (t : Text) : State := { s with msg := t }
/-- `OUT <- t` (R30). -/
def State.setOut (s : State) (t : Text) : State := { s with out := t }
/-- IMG's cells replaced, the dimensions kept (R32). -/
def State.setImg (s : State) (m : Memory) : State := { s with img := m }
/-- The host's actions to come (log entry 9). -/
def State.setPending (s : State) (l : List HostAction) : State := { s with pending := l }
/-- What the host's read returned (log entry 11). -/
def State.setReply (s : State) (v : HostValue) : State := { s with reply := some v }
/-- The number of `Encrypt` calls made (log entry 5). -/
def State.setDraws (s : State) (n : Nat) : State := { s with draws := n }

/-- The attached image replaced, dimensions and cells together (R27, R33). -/
def State.setImage (s : State) (w h : Dim) (m : Memory) : State :=
  { s with width := w, height := h, img := m }

/-- `MemRead(a, 1)` (R59); an address at or above `N` does not exist (R54). -/
def memRead (s : State) (a : Nat) : Except Fault Byte :=
  if a < s.imgSize then .ok (s.img.read a) else .error (.imgAddress a)

/-- `MemWrite(a, 1, v)` (R59); an address at or above `N` does not exist (R54). -/
def memWrite (s : State) (a : Nat) (v : Byte) : Except Fault State :=
  if a < s.imgSize then .ok (s.setImg (s.img.write a v)) else .error (.imgAddress a)

/-- `raise E` in a command, or for an illegal word (`none`): the exception's whole effect (R160, R162). `CAP`, which
CAPCHK writes before it raises, is in the state already. There is no return from an exception and nothing to restore
(R163): the next command overwrites `STATUS`. -/
def raiseError (command : Option Instr) (e : Err) (s : State) : State :=
  match command with
  | some .decode => (s.setOut []).setStatus (statusError e)
  | _ => s.setStatus (statusError e)

/-- A command's successful end (R72): `STATUS <- 0x01`. -/
def completeOk (s : State) : State := s.setStatus statusOk

/-- `Encrypt(k, p)`: the bytes of this draw, and the state with the draw counted (R9, R12). The call reads and writes no
state the spec gives the machine (R11). -/
def drawEncrypt (P : CipherPort) (k : Key) (p : Text) (s : State) : List Byte × State :=
  (P.encrypt s.draws k p, s.setDraws (s.draws + 1))

/-- The host's next action and the state in which it is performed (R33, R80); `none` when the host does nothing. -/
def nextAction (s : State) : Option (HostAction × State) :=
  match s.pending with
  | [] => none
  | a :: rest => some (a, s.setPending rest)

/-- The host's next action put before the others: a write of a word to `CMD` (R21). -/
def placeCommand (s : State) (w : CmdWord) : State :=
  s.setPending (.write .cmd (.word w) :: s.pending)

end Sys2Proof.Machine
end

