-- ==== Sys2Proof/Machine/Capacity.lean ====
section
/-! DEFINITION. The capacity checker: CAPCHK (41_capacity.md). -/

namespace Sys2Proof.Machine

/-- CAPCHK (R105): `CAP` is written on both outcomes, before the test. -/
def execCapchk (s : State) : Host.Outcome State Fault Refusal :=
  let cap := s.capacity
  let s1 := s.setCap (BitVec.ofNat (2 * Config.dimw) cap)
  if fits s.width.toNat s.height.toNat s.plen.toNat then .next (completeOk s1)
  else .next (raiseError (some .capchk) .payloadTooLarge s1)

end Sys2Proof.Machine
end

