-- ==== Sys2Proof/Machine/Bitpack.lean ====
section
/-! DEFINITION. The bit packer and unpacker: TOBITS and FROMBITS (40_bitpack.md). -/

namespace Sys2Proof.Machine

/-- `to_bits` (R90): most-significant bit first (R56). -/
def toBits (b : Byte) : Bits8 :=
  #v[b.getLsbD 7, b.getLsbD 6, b.getLsbD 5, b.getLsbD 4, b.getLsbD 3, b.getLsbD 2, b.getLsbD 1, b.getLsbD 0]

/-- `from_bits` (R91). -/
def fromBits (s : Bits8) : Byte :=
  BitVec.ofNat 8
    (s[0].toNat * 128 + s[1].toNat * 64 + s[2].toNat * 32 + s[3].toNat * 16 + s[4].toNat * 8 + s[5].toNat * 4
      + s[6].toNat * 2 + s[7].toNat * 1)

/-- TOBITS (R92). -/
def execTobits (s : State) : Host.Outcome State Fault Refusal :=
  .next (completeOk (s.setBits (toBits s.byte)))

/-- FROMBITS (R94). -/
def execFrombits (s : State) : Host.Outcome State Fault Refusal :=
  .next (completeOk (s.setByte (fromBits s.bits)))

end Sys2Proof.Machine
end

