-- ==== Sys2Proof/Machine/Decoder.lean ====
section
/-! DEFINITION. The decoder: DECODE (43_decode.md). -/

namespace Sys2Proof.Machine

/-- `extract` (R131): the least-significant bits of the next `n` cells from address `t` on, one read a cell, in
ascending order (R61). -/
def extractBits (s : State) : Nat → Nat → Except Fault (List Bool)
  | 0, _ => .ok []
  | n + 1, t =>
    match memRead s t with
    | .error f => .error f
    | .ok v =>
      match extractBits s n (t + 1) with
      | .error f => .error f
      | .ok bs => .ok (v.getLsbD 0 :: bs)

/-- `regroup` (R132): a byte for each group of eight bits, from bit 0 on; fewer than eight bits at the end are dropped
(R133). -/
def regroup : List Bool → List Byte
  | b0 :: b1 :: b2 :: b3 :: b4 :: b5 :: b6 :: b7 :: bs => fromBits #v[b0, b1, b2, b3, b4, b5, b6, b7] :: regroup bs
  | _ => []

/-- The Bitstream of the attached image (R53): the least-significant bit of each cell, by ascending address. -/
def State.bitstream (s : State) : List Bool := (List.range s.imgSize).map fun t => (s.img.read t).getLsbD 0

/-- The candidate byte stream (R132). -/
def State.candidateBytes (s : State) : List Byte := regroup s.bitstream

/-- The slice `B[off .. off + bs)` (R137). -/
def blockAt (bytes : List Byte) (bs off : Nat) : List Byte := (bytes.drop off).take bs

/-- `deframe` (R135 to R138) from an offset and an accumulated text on: `none` is `SentinelNotFound`. The first argument
bounds the iterations; with a block size of at least 1, one more than the number of bytes is never used up (R141). -/
def deframe (P : CipherPort) (k : Key) (bytes : List Byte) : Nat → Nat → Text → Option Text
  | 0, _, _ => none
  | fuel + 1, off, acc =>
    if off + blockSize k > bytes.length then none
    else
      let txt := P.decrypt k (blockAt bytes (blockSize k) off)
      if txt = P.sentinel then some acc
      else deframe P k bytes fuel (off + blockSize k) (acc ++ txt)

/-- DECODE (R140) over a cipher port. The key is tested before the first IMG read (R158). -/
def decodeWith (P : CipherPort) (s : State) : Host.Outcome State Fault Refusal :=
  match s.dkey with
  | none => .next (raiseError (some .decode) .badOperand s)
  | some k =>
    if blockSize k = 0 then .next (raiseError (some .decode) .badOperand s)
    else
      match extractBits s s.imgSize 0 with
      | .error f => .fault f
      | .ok stream =>
        let bytes := regroup stream
        match deframe P k bytes (bytes.length + 1) 0 [] with
        | none => .next (raiseError (some .decode) .sentinelNotFound s)
        | some acc => .next (completeOk (s.setOut acc))

/-- DECODE with this instance's cipher and sentinel. -/
def execDecode (s : State) : Host.Outcome State Fault Refusal := decodeWith Config.cipher s

end Sys2Proof.Machine
end

