-- ==== Sys2Proof/Machine/Encoder.lean ====
section
/-! DEFINITION. The encoder: ENCODE (42_encode.md). -/

namespace Sys2Proof.Machine

/-- `flatten` (R114): the bits of the payload's bytes, in payload order. -/
def flatten (p : List Byte) : List Bool := p.flatMap fun b => (toBits b).toList

/-- `set_lsb` (R115), in the arithmetic form. -/
def setLsb (v : Byte) (b : Bool) : Byte := (v &&& 0xFE) ||| BitVec.ofNat 8 b.toNat

/-- `embed` (R118): the bits go to the cells from address `t` on, one read and one write of a cell for each bit, in
ascending order (R60). The cells after the last bit are not accessed. -/
def embed : List Bool → Nat → State → Except Fault State
  | [], _, s => .ok s
  | b :: bs, t, s =>
    match memRead s t with
    | .error f => .error f
    | .ok v =>
      match memWrite s t (setLsb v b) with
      | .error f => .error f
      | .ok s1 => embed bs (t + 1) s1

/-- `frame` (R112): two `Encrypt` calls, the message's bytes and then the sentinel's. -/
def framePayload (P : CipherPort) (k : Key) (m : Text) (s : State) : List Byte × State :=
  let cm := drawEncrypt P k m s
  let cs := drawEncrypt P k P.sentinel cm.2
  (cm.1 ++ cs.1, cs.2)

/-- ENCODE (R119) over a cipher port. The tests are in the order of R157, all before the first IMG access (R124). -/
def encodeWith (P : CipherPort) (s : State) : Host.Outcome State Fault Refusal :=
  match s.ekey with
  | none => .next (raiseError (some .encode) .badOperand s)
  | some k =>
    if containsText s.msg P.sentinel then .next (raiseError (some .encode) .forbiddenSubstring s)
    else
      let payload := framePayload P k s.msg s
      if fits s.width.toNat s.height.toNat payload.1.length then
        match embed (flatten payload.1) 0 payload.2 with
        | .error f => .fault f
        | .ok s1 => .next (completeOk s1)
      else .next (raiseError (some .encode) .payloadTooLarge payload.2)

/-- ENCODE with this instance's cipher and sentinel. -/
def execEncode (s : State) : Host.Outcome State Fault Refusal := encodeWith Config.cipher s

end Sys2Proof.Machine
end

