-- ==== Sys2Proof/Machine/HostPort.lean ====
section
/-! DEFINITION. The host's actions (R33, R180) and the issue of a command (R72). -/

namespace Sys2Proof.Machine

/-- The commands over any cipher port: what `exec` is at `Config.cipher`. The open parameters are arguments
(92_eei_decisions.md), so a claim can hold for every cipher and a test can supply one. -/
def execOver (P : CipherPort) (i : Instr) (s : State) : Host.Outcome State Fault Refusal :=
  match i with
  | .tobits => execTobits s
  | .frombits => execFrombits s
  | .capchk => execCapchk s
  | .encode => encodeWith P s
  | .decode => decodeWith P s

/-- What the commands do: `exec`, or `execOver` a cipher port. -/
abbrev Meanings := Instr → State → Host.Outcome State Fault Refusal

/-- A write of `w` to `CMD` (R21, R72): the command it encodes runs to its end; an illegal word takes the exception
`IllegalCommand` and does nothing else (R74, R154). -/
def issueCommand (run : Meanings) (w : CmdWord) (s : State) : Host.Outcome State Fault Refusal :=
  match decode w with
  | .ok i => run i s
  | .error _ => .next (raiseError none .illegalCommand s)

/-- `HostWrite(r, v)` (R33): a value of another type than the register's has no step; a write to a read-only register
has no effect. -/
def hostWrite (run : Meanings) (r : Reg) (v : HostValue) (s : State) : Host.Outcome State Fault Refusal :=
  match r with
  | .cmd =>
    match v with
    | .word w => issueCommand run w s
    | _ => .refused (.hostValueType .cmd)
  | .byte =>
    match v with
    | .word w => .next (s.setByte w)
    | _ => .refused (.hostValueType .byte)
  | .bits =>
    match v with
    | .bits b => .next (s.setBits b)
    | _ => .refused (.hostValueType .bits)
  | .plen =>
    match v with
    | .num n =>
      if n < 2 ^ (2 * Config.dimw) then .next (s.setPlen (BitVec.ofNat (2 * Config.dimw) n))
      else .refused (.hostValueType .plen)
    | _ => .refused (.hostValueType .plen)
  | .ekey =>
    match v with
    | .key k => .next (s.setEkey k)
    | _ => .refused (.hostValueType .ekey)
  | .dkey =>
    match v with
    | .key k => .next (s.setDkey k)
    | _ => .refused (.hostValueType .dkey)
  | .msg =>
    match v with
    | .text t => .next (s.setMsg t)
    | _ => .refused (.hostValueType .msg)
  | .status => .next s
  | .cap => .next s
  | .width => .next s
  | .height => .next s
  | .out => .next s

/-- The value `HostRead(r)` returns (R33); `none` for the registers that cannot be read. -/
def readReg (r : Reg) (s : State) : Option HostValue :=
  match r with
  | .cmd => none
  | .status => some (.word s.status)
  | .byte => some (.word s.byte)
  | .bits => some (.bits s.bits)
  | .plen => some (.num s.plen.toNat)
  | .cap => some (.num s.cap.toNat)
  | .width => some (.num s.width.toNat)
  | .height => some (.num s.height.toNat)
  | .ekey => none
  | .dkey => none
  | .msg => some (.text s.msg)
  | .out => some (.text s.out)

/-- `HostRead(r)` (R33). -/
def hostRead (r : Reg) (s : State) : Host.Outcome State Fault Refusal :=
  match readReg r s with
  | some v => .next (s.setReply v)
  | none => .refused (.hostNoSuchRead r)

/-- When `HostAttachImage(W, H, data)` is allowed (R33). -/
def attachAllowed (w h : Nat) (data : List Byte) : Bool :=
  decide (w < 2 ^ Config.dimw) && decide (h < 2 ^ Config.dimw) && decide (data.length = bitCapacity w h)

/-- `HostAttachImage(W, H, data)` (R33). -/
def hostAttach (w h : Nat) (data : List Byte) (s : State) : Host.Outcome State Fault Refusal :=
  if attachAllowed w h data then
    .next (s.setImage (BitVec.ofNat Config.dimw w) (BitVec.ofNat Config.dimw h) (Memory.ofBytes data 0))
  else .refused .hostAttachShape

/-- `HostImgRead(a)` (R33). -/
def hostImgRead (a : Nat) (s : State) : Host.Outcome State Fault Refusal :=
  match memRead s a with
  | .ok v => .next (s.setReply (.word v))
  | .error _ => .refused (.hostImgAddress a)

/-- `HostImgWrite(a, v)` (R33). -/
def hostImgWrite (a : Nat) (v : Byte) (s : State) : Host.Outcome State Fault Refusal :=
  match memWrite s a v with
  | .ok s1 => .next s1
  | .error _ => .refused (.hostImgAddress a)

/-- Reset (R180): every piece of the machine's state at its reset value. The host's own side, what it has still to do and
what it has read, is no state of the machine and stays; so does the number of the next draw. Log entry 14. -/
def hostReset (s : State) : State :=
  { State.reset with pending := s.pending, reply := s.reply, draws := s.draws }

/-- One host action (R33, R180). -/
def performAction (run : Meanings) (a : HostAction) (s : State) : Host.Outcome State Fault Refusal :=
  match a with
  | .write r v => hostWrite run r v s
  | .read r => hostRead r s
  | .attach w h data => hostAttach w h data s
  | .imgRead a => hostImgRead a s
  | .imgWrite a v => hostImgWrite a v s
  | .reset => .next (hostReset s)

/-- What happens next: the host's next action is performed, a command run to its end with it (R72); while the host does
nothing, nothing happens (R183). -/
def runNext (run : Meanings) (s : State) : Host.Outcome State Fault Refusal :=
  match nextAction s with
  | none => .next s
  | some (a, s1) => performAction run a s1

end Sys2Proof.Machine
end

