-- ==== Sys2Proof/Machine/Step.lean ====
section
/-! DEFINITION. The step, and the placing of an instruction where the step takes its next one. -/

namespace Sys2Proof.Machine

/-- One step: one action of the host (R33), a whole command when it writes `CMD` (R72). -/
def step (s : State) : Host.Outcome State Fault Refusal := runNext exec s

/-- The host's next action is a write of the table's word to `CMD`. There is no program counter and no instruction
memory (R40): this stands for the host's own script. Log entry 9. -/
def State.withFetchWord (s : State) (nbits w : Nat) : State := placeCommand s (tableWord nbits w)

end Sys2Proof.Machine
end

