-- ==== Sys2Proof/Machine/Script.lean ====
section
/-! DEFINITION. Host scripts (R80), the pseudo-commands (R83), the call protocol (R84). -/

namespace Sys2Proof.Machine

/-- A line of a script: a host action or a check (R80). -/
inductive ScriptLine where
  /-- `RESET`. -/
  | reset
  /-- `ATTACH <W> <H> <bytes>`. -/
  | attach (w h : Nat) (data : List Byte)
  /-- `POKE <a> <v>`. -/
  | poke (a : Nat) (v : Byte)
  /-- `SET <reg> <value>`. -/
  | set (r : Reg) (v : HostValue)
  /-- `<mnemonic>`. -/
  | command (i : Instr)
  /-- `CMD <word>`. -/
  | cmd (w : CmdWord)
  /-- `EXPECT <reg> <value>`. -/
  | expect (r : Reg) (v : HostValue)
  /-- `EXPECT IMG <bytes>`. -/
  | expectImg (data : List Byte)
  deriving DecidableEq, Repr

/-- The host actions of a line (R80). `EXPECT IMG` reads every cell of the image then attached. -/
def ScriptLine.actions (l : ScriptLine) (s : State) : List HostAction :=
  match l with
  | .reset => [.reset]
  | .attach w h data => [.attach w h data]
  | .poke a v => [.imgWrite a v]
  | .set r v => [.write r v]
  | .command i => [.write .cmd (.word (encode i))]
  | .cmd w => [.write .cmd (.word w)]
  | .expect r _ => [.read r]
  | .expectImg _ => (List.range s.imgSize).map HostAction.imgRead

/-- The check of a line, in the state in which the line is reached (R80): what an `EXPECT` reads is what it names. -/
def ScriptLine.holds (l : ScriptLine) (s : State) : Bool :=
  match l with
  | .expect r v => decide (readReg r s = some v)
  | .expectImg data => decide ((List.range s.imgSize).map s.img.read = data)
  | _ => true

/-- Host actions one after another. -/
def performAll (run : Meanings) : List HostAction → State → Host.Outcome State Fault Refusal
  | [], s => .next s
  | a :: as, s =>
    match performAction run a s with
    | .next t => performAll run as t
    | .fault f => .fault f
    | .refused r => .refused r

/-- How a script ended, and whether every check on the way held. -/
structure ScriptResult where
  outcome : Host.Outcome State Fault Refusal
  passed : Bool

/-- A script's lines in order (R80). A check that fails is noted and the script goes on. -/
def runScript (run : Meanings) : List ScriptLine → State → ScriptResult
  | [], s => { outcome := .next s, passed := true }
  | l :: ls, s =>
    match performAll run (l.actions s) s with
    | .next t =>
      let r := runScript run ls t
      { outcome := r.outcome, passed := l.holds s && r.passed }
    | .fault f => { outcome := .fault f, passed := false }
    | .refused r => { outcome := .refused r, passed := false }

/-- `CALL_TOBITS <v>` (R83). -/
def callTobits (v : Byte) : List ScriptLine := [.set .byte (.word v), .command .tobits]

/-- `CALL_FROMBITS <s>` (R83). -/
def callFrombits (b : Bits8) : List ScriptLine := [.set .bits (.bits b), .command .frombits]

/-- `CALL_CAPCHK <n>` (R83). -/
def callCapchk (n : Nat) : List ScriptLine := [.set .plen (.num n), .command .capchk]

/-- `CALL_ENCODE <text> <key>` (R83). -/
def callEncode (t : Text) (k : Key) : List ScriptLine :=
  [.set .msg (.text t), .set .ekey (.key k), .command .encode]

/-- `CALL_DECODE <key>` (R83). -/
def callDecode (k : Key) : List ScriptLine := [.set .dkey (.key k), .command .decode]

/-- What the host makes of `STATUS` after a command (R84): the code of the error raised, or `none` when the command
succeeded and its results may be read. -/
def callError (s : State) : Option (BitVec 3) :=
  if statusState s.status = 2 then some (statusCode s.status) else none

end Sys2Proof.Machine
end

