-- ==== Sys2Proof/Safety.lean ====
section
/-! DEFINITION. The terms in which claims are stated: the invariant of the machine's states, and what a claim about the
round trip asks of the cipher. -/

namespace Sys2Proof.Machine

/-- What the rules promise of every state: `STATUS` holds one of its seven values (R22), `CAP` is below `2^(2*DIMW - 1)`
(R26), and IMG is in canonical form with no cell at or above `WIDTH*HEIGHT*3` (R34). -/
abbrev State.Inv (s : State) : Prop :=
  legalStatus s.status = true ∧ s.cap.toNat < 2 ^ (2 * Config.dimw - 1) ∧ s.img.wf = true ∧
    s.img.below s.imgSize = true

/-- A step that neither faults nor is refused. -/
def completes (o : Host.Outcome State Fault Refusal) : Bool :=
  match o with
  | .next _ => true
  | .fault _ => false
  | .refused _ => false

/-- The texts that the first `q` blocks of a byte sequence decrypt to, concatenated (R14, R139). -/
def decryptBlocks (P : CipherPort) (k : Key) (bytes : List Byte) (q : Nat) : Text :=
  (List.range q).flatMap fun i => P.decrypt k (blockAt bytes (blockSize k) (i * blockSize k))

/-- `CipherFaithful(ke, kd, m)` (R14): (a) the block size is at least 1; (b) every draw of the encrypted message is a
number of whole blocks whose decryptions concatenate to the message; (c) every draw of the encrypted sentinel is exactly
one block that decrypts to the sentinel. -/
def CipherFaithful (P : CipherPort) (ke kd : Key) (m : Text) : Prop :=
  1 ≤ blockSize kd ∧
  (∀ n, ∃ q, (P.encrypt n ke m).length = q * blockSize kd ∧ decryptBlocks P kd (P.encrypt n ke m) q = m) ∧
  (∀ n, (P.encrypt n ke P.sentinel).length = blockSize kd ∧ P.decrypt kd (P.encrypt n ke P.sentinel) = P.sentinel)

end Sys2Proof.Machine
end

