-- ==== Sys2Proof/Certificates/Slice0/Obligations.lean ====
section
/-! DEFINITION. The statements for the provers. Each docstring names the rule of spec/ it formalises, or the model's own
choice and its log entry. Rules that the spec marks `[derived: ...]` are its own inferences, and a statement on one is
listed as derived; rules marked `[decision: ... D<n>]` are the values and behaviour the spec itself gives.
`execOver P` is the commands over any cipher port; `exec` is the machine's own. -/

open Sys2Proof Sys2Proof.Machine

/-! ### Encoding -/

/-- R73: the five legal words and their commands, and no other word has one. -/
def Obligations.CommandWordTable : Prop :=
  ∀ (w : CmdWord) (i : Instr), decode w = .ok i ↔
    (w = 0x01 ∧ i = .tobits) ∨ (w = 0x02 ∧ i = .frombits) ∨ (w = 0x03 ∧ i = .capchk) ∨
      (w = 0x04 ∧ i = .encode) ∨ (w = 0x05 ∧ i = .decode)

/-- R70, R73, R77: decoding undoes encoding on every command, and encoding undoes decoding on every word that decodes. -/
def Obligations.DecodeAndEncodeAgree : Prop :=
  (∀ i : Instr, i.wellFormed = true → decode (encode i) = .ok i) ∧
    ∀ (w : CmdWord) (i : Instr), decode w = .ok i → encode i = w

/-- R74, R154: every other word is illegal; a host write of one to `CMD` writes `STATUS` and nothing else. -/
def Obligations.IllegalWordWritesStatusOnly : Prop :=
  ∀ (w : CmdWord) (s : State), w.toNat = 0 ∨ 6 ≤ w.toNat →
    (∃ e, decode w = .error e) ∧ step (placeCommand s w) = .next { s with status := 0x42 }

/-! ### The step -/

/-- R72: a host write of a word to `CMD` is one step, the whole command the word decodes to. The host's next action is
taken from `pending` (log entry 9). -/
def Obligations.StepRunsDecodedCommand : Prop :=
  ∀ (s : State) (w : CmdWord) (i : Instr) (rest : List HostAction),
    s.pending = .write .cmd (.word w) :: rest → decode w = .ok i → i.wellFormed = true →
      step s = exec i { s with pending := rest }

/-- R33, R183: a step performs the host's next action, and changes nothing while the host does nothing. The list of
actions to come is the model's (log entry 9). -/
def Obligations.StepPerformsHostAction : Prop :=
  ∀ s : State,
    (∀ (a : HostAction) (rest : List HostAction),
      s.pending = a :: rest → step s = performAction exec a { s with pending := rest }) ∧
    (s.pending = [] → step s = .next s)

/-! ### Bit packer -/

/-- R90: element `i` of `to_bits(b)` is bit `7 - i` of the byte. -/
def Obligations.UnpackedBitPositions : Prop :=
  ∀ (b : Byte) (i : Nat) (h : i < 8), (toBits b)[i] = b.getLsbD (7 - i) ∧
    ((toBits b)[i] = true ↔ b.toNat / 2 ^ (7 - i) % 2 = 1)

/-- R91: the weighted sum, which fits a byte, and bit `7 - i` of the byte is element `i`. -/
def Obligations.PackedByteValue : Prop :=
  ∀ s : Bits8,
    (fromBits s).toNat = s[0].toNat * 128 + s[1].toNat * 64 + s[2].toNat * 32 + s[3].toNat * 16 + s[4].toNat * 8
        + s[5].toNat * 4 + s[6].toNat * 2 + s[7].toNat * 1 ∧
      ∀ (i : Nat) (h : i < 8), (fromBits s).getLsbD (7 - i) = s[i]

/-- R93: the two functions are inverse to each other. -/
def Obligations.PackAndUnpackInverse : Prop :=
  (∀ b : Byte, fromBits (toBits b) = b) ∧ ∀ s : Bits8, toBits (fromBits s) = s

/-- R92: TOBITS, its word, its whole effect, its corner cases and its example. -/
def Obligations.TobitsResult : Prop :=
  decode 0x01 = .ok .tobits ∧
  (∀ s : State, exec .tobits s = .next { s with bits := toBits s.byte, status := 0x01 }) ∧
  toBits 0x00 = #v[false, false, false, false, false, false, false, false] ∧
  toBits 0xFF = #v[true, true, true, true, true, true, true, true] ∧
  toBits 0x80 = #v[true, false, false, false, false, false, false, false] ∧
  toBits 0x01 = #v[false, false, false, false, false, false, false, true] ∧
  toBits 0xA5 = #v[true, false, true, false, false, true, false, true]

/-- R94: FROMBITS, its word, its whole effect, its corner cases and its example. -/
def Obligations.FrombitsResult : Prop :=
  decode 0x02 = .ok .frombits ∧
  (∀ s : State, exec .frombits s = .next { s with byte := fromBits s.bits, status := 0x01 }) ∧
  fromBits #v[false, false, false, false, false, false, false, false] = 0x00 ∧
  fromBits #v[true, true, true, true, true, true, true, true] = 0xFF ∧
  fromBits #v[false, true, false, false, false, false, false, false] = 0x40 ∧
  fromBits #v[false, false, false, false, false, false, true, false] = 0x02 ∧
  fromBits #v[false, false, true, false, false, true, false, false] = 0x24 ∧
  (∀ s t u : State, exec .tobits s = .next t → exec .frombits t = .next u → u.byte = s.byte) ∧
  ∀ s t u : State, exec .frombits s = .next t → exec .tobits t = .next u → u.bits = s.bits

/-! ### Capacity -/

/-- R105: CAPCHK writes the exact capacity on both outcomes, raises `PayloadTooLarge` exactly when `PLEN` is larger, and
changes nothing else. -/
def Obligations.CapchkResult : Prop :=
  decode 0x03 = .ok .capchk ∧
  ∀ s : State, ∃ t, exec .capchk s = .next t ∧
    t.cap.toNat = s.width.toNat * s.height.toNat * 3 / 8 ∧
    t.status = (if s.width.toNat * s.height.toNat * 3 / 8 < s.plen.toNat then 0x22 else 0x01) ∧
    t = { s with cap := t.cap, status := t.status }

/-- R26: the capacity of an image whose dimensions fit `DIMW` bits fits `2*DIMW - 1` bits (`DIMW` at its default, log
entry 1). -/
def Obligations.CapacityFitsCapRegister : Prop :=
  ∀ w h : Nat, w < 2 ^ Config.dimw → h < 2 ^ Config.dimw → capacityBytes w h < 2 ^ (2 * Config.dimw - 1)

/-- R103: the capacity test in bytes and in bits is the same test. -/
def Obligations.CapacityTestInBits : Prop :=
  ∀ w h len : Nat, (fits w h len = true ↔ len ≤ w * h * 3 / 8) ∧ (fits w h len = true ↔ 8 * len ≤ w * h * 3)

/-! ### Encoder -/

/-- The containment test of 00_scope.md section 6: a contiguous occurrence, character by character. -/
def Obligations.ContainmentIsContiguousOccurrence : Prop :=
  ∀ hay needle : Text, containsText hay needle = true ↔
    ∃ i, i + needle.length ≤ hay.length ∧ (hay.drop i).take needle.length = needle

/-- R114: the flattened payload, bit by bit. -/
def Obligations.FlattenedBitPositions : Prop :=
  flatten [] = [] ∧
  ∀ p : List Byte, (flatten p).length = 8 * p.length ∧
    ∀ (j : Nat) (h : j < p.length) (i : Nat), i < 8 → (flatten p)[8 * j + i]? = some (p[j].getLsbD (7 - i))

/-- R115: replacing the least-significant bit, bit by bit and as a number. -/
def Obligations.LsbReplacement : Prop :=
  ∀ (v : Byte) (b : Bool),
    (setLsb v b).getLsbD 0 = b ∧
    (∀ i, 1 ≤ i → i < 8 → (setLsb v b).getLsbD i = v.getLsbD i) ∧
    (setLsb v b).toNat = v.toNat - v.toNat % 2 + b.toNat

/-- R116, R117, both derived by the spec: the replacement through the packer, and its laws. -/
def Obligations.LsbReplacementLaws : Prop :=
  ∀ (v : Byte) (b : Bool),
    setLsb v b = fromBits #v[(toBits v)[0], (toBits v)[1], (toBits v)[2], (toBits v)[3], (toBits v)[4], (toBits v)[5],
      (toBits v)[6], b] ∧
    (setLsb v b ^^^ v).toNat ≤ 1 ∧
    setLsb v (v.getLsbD 0) = v ∧
    ∀ c : Bool, setLsb (setLsb v b) c = setLsb v c

/-- R155 (a), R157: ENCODE with no key written raises `BadOperand`, whatever the message. -/
def Obligations.EncodeWithoutKeyRaisesBadOperand : Prop :=
  ∀ s : State, s.ekey = none → exec .encode s = .next { s with status := 0x52 }

/-- R151: ENCODE raises `ForbiddenSubstring` exactly when the message contains the sentinel, after the key test and before
any `Encrypt` call or IMG access; only `STATUS` changes (no draw is counted either). -/
def Obligations.ForbiddenMessageRaisesForbiddenSubstring : Prop :=
  (∀ (s : State) (k : Key), s.ekey = some k → containsText s.msg Config.cipher.sentinel = true →
    exec .encode s = .next { s with status := 0x12 }) ∧
  ∀ s t : State, exec .encode s = .next t → t.status = 0x12 →
    s.ekey ≠ none ∧ containsText s.msg Config.cipher.sentinel = true

/-- R119: ENCODE with a key and a message that does not contain the sentinel. With `p` the bytes of the two draws: when
`p` fits, each cell under a payload bit takes that bit for its least-significant one, every other cell keeps its byte,
`STATUS` is `OK`; when it does not, `STATUS` alone is written. The two draws are counted either way (log entry 5). The
memory is in canonical form, which every step keeps (log entry 12). -/
def Obligations.EncodeHidesThePayload : Prop :=
  ∀ (s : State) (k : Key), s.ekey = some k → containsText s.msg Config.cipher.sentinel = false → s.img.wf = true →
    ∃ t p, exec .encode s = .next t ∧
      p = Config.cipher.encrypt s.draws k s.msg ++ Config.cipher.encrypt (s.draws + 1) k Config.cipher.sentinel ∧
      if p.length ≤ s.width.toNat * s.height.toNat * 3 / 8 then
        t = { s with img := t.img, status := 0x01, draws := s.draws + 2 } ∧ t.img.wf = true ∧
        (∀ (a : Nat) (h : a < (flatten p).length), t.img.read a = setLsb (s.img.read a) (flatten p)[a]) ∧
        ∀ a, 8 * p.length ≤ a → t.img.read a = s.img.read a
      else t = { s with status := 0x22, draws := s.draws + 2 }

/-- R122: after a successful ENCODE every cell beyond the payload's bits holds what it held, for every cipher. -/
def Obligations.EncodeKeepsCellsBeyondPayload : Prop :=
  ∀ (P : CipherPort) (s t : State) (k : Key), s.ekey = some k → execOver P .encode s = .next t → t.status = 0x01 →
    ∀ a, 8 * (framePayload P k s.msg s).1.length ≤ a → t.img.read a = s.img.read a

/-- R123: after a successful ENCODE a touched cell differs in its least-significant bit at most, which is the payload's
bit, for every cipher. -/
def Obligations.EncodeTouchesLeastSignificantBitsOnly : Prop :=
  ∀ (P : CipherPort) (s t : State) (k : Key), s.img.wf = true → s.ekey = some k →
    execOver P .encode s = .next t → t.status = 0x01 →
    ∀ (a : Nat) (h : a < (flatten (framePayload P k s.msg s).1).length),
      (t.img.read a ^^^ s.img.read a).toNat ≤ 1 ∧
      (t.img.read a).getLsbD 0 = (flatten (framePayload P k s.msg s).1)[a] ∧
      ∀ i, 1 ≤ i → i < 8 → (t.img.read a).getLsbD i = (s.img.read a).getLsbD i

/-- R124: an ENCODE that ends in an error leaves every cell as it was, and changes `STATUS` alone (and the model's own
count of draws, log entry 5). -/
def Obligations.FailedEncodeLeavesTheImage : Prop :=
  ∀ s t : State, exec .encode s = .next t → statusState t.status = 2 →
    t.img = s.img ∧ t = { s with status := t.status, draws := t.draws }

/-- R125: after a successful ENCODE the Bitstream starts with the payload's bits and the candidate byte stream with the
payload, in every later state that has the same cells below the payload's end, for every cipher. -/
def Obligations.EncodedPayloadReadsBack : Prop :=
  ∀ (P : CipherPort) (s t u : State) (k : Key), s.img.wf = true → s.ekey = some k →
    execOver P .encode s = .next t → t.status = 0x01 → u.imgSize = t.imgSize →
    (∀ a, a < 8 * (framePayload P k s.msg s).1.length → u.img.read a = t.img.read a) →
    u.bitstream.take (8 * (framePayload P k s.msg s).1.length) = flatten (framePayload P k s.msg s).1 ∧
    u.candidateBytes.take (framePayload P k s.msg s).1.length = (framePayload P k s.msg s).1

/-- R110: what ENCODE does depends on `MSG`, `EKEY`, `WIDTH`, `HEIGHT` and IMG (and the number of the draw, log entry 5)
alone: two states that agree on them get the same image and `STATUS`. -/
def Obligations.EncodeReadsItsOperandsOnly : Prop :=
  ∀ s u : State, s.msg = u.msg → s.ekey = u.ekey → s.width = u.width → s.height = u.height → s.img = u.img →
    s.draws = u.draws →
    ∃ m w n, exec .encode s = .next { s with img := m, status := w, draws := n } ∧
      exec .encode u = .next { u with img := m, status := w, draws := n }

/-! ### Decoder -/

/-- R131: extraction reads the least-significant bit of every cell, in address order, and never faults. -/
def Obligations.ExtractionReadsEveryCell : Prop :=
  ∀ s : State, ∃ bits, extractBits s s.imgSize 0 = .ok bits ∧
    bits.length = s.width.toNat * s.height.toNat * 3 ∧
    ∀ (t : Nat) (h : t < bits.length), bits[t] = (s.img.read t).getLsbD 0

/-- R132, R133: regrouping makes `floor(N / 8)` bytes, the first bit of a group the most significant. -/
def Obligations.RegroupedBytes : Prop :=
  ∀ bits : List Bool, (regroup bits).length = bits.length / 8 ∧
    ∀ (j : Nat) (h : j < (regroup bits).length) (i : Nat), i < 8 →
      bits[8 * j + i]? = some ((regroup bits)[j].getLsbD (7 - i))

/-- R8: the block size is the declared key size in bits, divided by eight and rounded up. -/
def Obligations.BlockSizeRoundsUp : Prop :=
  ∀ k : Key, k.sizeBits ≤ 8 * blockSize k ∧ 8 * blockSize k < k.sizeBits + 8

/-- R155 (b) and (c), R158, R162: DECODE with no key written, or with a key of size zero, raises `BadOperand` and clears
`OUT`. -/
def Obligations.DecodeWithoutUsableKeyRaisesBadOperand : Prop :=
  ∀ s : State, (s.dkey = none ∨ ∃ k, s.dkey = some k ∧ k.sizeBits = 0) →
    exec .decode s = .next { s with out := [], status := 0x52 }

/-- R135 to R140, R153: DECODE with a usable key. Either block `q` is the first whole block of the candidate byte stream
that decrypts to the sentinel, and `OUT` is the texts of the blocks before it; or no whole block decrypts to the
sentinel, and the command raises `SentinelNotFound` with `OUT` empty. Nothing else changes. -/
def Obligations.DecodeRecoversTheMessage : Prop :=
  ∀ (s : State) (k : Key), s.dkey = some k → k.sizeBits ≠ 0 →
    ∃ t, exec .decode s = .next t ∧
      ((∃ q, (q + 1) * blockSize k ≤ s.candidateBytes.length ∧
          Config.cipher.decrypt k (blockAt s.candidateBytes (blockSize k) (q * blockSize k)) = Config.cipher.sentinel ∧
          (∀ i, i < q →
            Config.cipher.decrypt k (blockAt s.candidateBytes (blockSize k) (i * blockSize k)) ≠ Config.cipher.sentinel) ∧
          t = { s with out := decryptBlocks Config.cipher k s.candidateBytes q, status := 0x01 }) ∨
        ((∀ q, (q + 1) * blockSize k ≤ s.candidateBytes.length →
            Config.cipher.decrypt k (blockAt s.candidateBytes (blockSize k) (q * blockSize k)) ≠ Config.cipher.sentinel) ∧
          t = { s with out := [], status := 0x32 }))

/-- R143: for every cipher, DECODE raises `SentinelNotFound` unless some block-aligned slice decrypts to the sentinel. -/
def Obligations.NoSentinelBlockRaisesSentinelNotFound : Prop :=
  ∀ (P : CipherPort) (s : State) (k : Key), s.dkey = some k → k.sizeBits ≠ 0 →
    (∀ q, (q + 1) * blockSize k ≤ s.candidateBytes.length →
      P.decrypt k (blockAt s.candidateBytes (blockSize k) (q * blockSize k)) ≠ P.sentinel) →
    execOver P .decode s = .next { s with out := [], status := 0x32 }

/-- R141: the de-framing loop needs at most `floor(M / bs)` iterations and the one in which the guard fires: a larger
bound changes nothing. -/
def Obligations.DeframingLoopIsBounded : Prop :=
  ∀ (P : CipherPort) (k : Key) (bytes : List Byte) (fuel : Nat), 1 ≤ blockSize k →
    bytes.length / blockSize k < fuel →
    deframe P k bytes fuel 0 [] = deframe P k bytes (bytes.length + 1) 0 []

/-- R145: an image with fewer bytes than a block holds no message, whatever the cipher. -/
def Obligations.SmallImageRaisesSentinelNotFound : Prop :=
  ∀ (s : State) (k : Key), s.dkey = some k → k.sizeBits ≠ 0 → s.imgSize / 8 < blockSize k →
    exec .decode s = .next { s with out := [], status := 0x32 } ∧
    ∀ P, execOver P .decode s = .next { s with out := [], status := 0x32 }

/-- R130, R131, R144: DECODE depends on `DKEY`, the number of cells and their least-significant bits alone. -/
def Obligations.DecodeReadsLeastSignificantBitsOnly : Prop :=
  ∀ s u : State, s.dkey = u.dkey → s.imgSize = u.imgSize →
    (∀ a, a < s.imgSize → (s.img.read a).getLsbD 0 = (u.img.read a).getLsbD 0) →
    ∃ o w, exec .decode s = .next { s with out := o, status := w } ∧
      exec .decode u = .next { u with out := o, status := w }

/-- R147: a second DECODE with nothing written in between gives the same state, and an image of other dimensions with the
same cells in the same order gives the same result. -/
def Obligations.DecodeIsRepeatable : Prop :=
  ∀ s t : State, exec .decode s = .next t →
    exec .decode t = .next t ∧
    ∀ w h : Dim, w.toNat * h.toNat = s.width.toNat * s.height.toNat →
      exec .decode { s with width := w, height := h } = .next { t with width := w, height := h }

/-- R142: the round trip. For every cipher port that is faithful for the keys and the message, a message that does not
contain the sentinel and fits is encoded, and a DECODE of any state with the decryption key and the same cells below the
payload's end recovers it. -/
def Obligations.RoundTripRecoversTheMessage : Prop :=
  ∀ (P : CipherPort) (s : State) (ke kd : Key), s.img.wf = true → s.ekey = some ke →
    containsText s.msg P.sentinel = false → CipherFaithful P ke kd s.msg →
    (P.encrypt s.draws ke s.msg).length + blockSize kd ≤ s.width.toNat * s.height.toNat * 3 / 8 →
    ∃ t, execOver P .encode s = .next t ∧ t.status = 0x01 ∧
      ∀ u : State, u.dkey = some kd → u.imgSize = t.imgSize →
        (∀ a, a < 8 * (framePayload P ke s.msg s).1.length → u.img.read a = t.img.read a) →
        ∃ v, execOver P .decode u = .next v ∧ v.out = s.msg ∧ v.status = 0x01

/-! ### Every command -/

/-- R126, R141: every command completes in every state: no fault, no refusal. -/
def Obligations.EveryCommandCompletes : Prop :=
  ∀ (i : Instr) (s : State), i.wellFormed = true → ∃ t, exec i s = .next t

/-- R31: what each command leaves unchanged: everything but the registers named here, and every cell of IMG but those
under ENCODE's payload bits. `draws` is the model's own count (log entry 5). -/
def Obligations.CommandFrame : Prop :=
  ∀ (i : Instr) (s t : State), exec i s = .next t →
    match i with
    | .tobits => t = { s with bits := t.bits, status := t.status }
    | .frombits => t = { s with byte := t.byte, status := t.status }
    | .capchk => t = { s with cap := t.cap, status := t.status }
    | .encode => t = { s with img := t.img, status := t.status, draws := t.draws } ∧
        ∀ k, s.ekey = some k → ∀ a, 8 * (framePayload Config.cipher k s.msg s).1.length ≤ a →
          t.img.read a = s.img.read a
    | .decode => t = { s with out := t.out, status := t.status }

/-- R150: the `STATUS` values each command can end with. -/
def Obligations.OutcomesOfEachCommand : Prop :=
  ∀ (i : Instr) (s t : State), exec i s = .next t →
    match i with
    | .tobits => t.status = 0x01
    | .frombits => t.status = 0x01
    | .capchk => t.status = 0x01 ∨ t.status = 0x22
    | .encode => t.status = 0x01 ∨ t.status = 0x12 ∨ t.status = 0x22 ∨ t.status = 0x52
    | .decode => t.status = 0x01 ∨ t.status = 0x32 ∨ t.status = 0x52

/-- R155, R157, R158: `BadOperand` comes from ENCODE exactly when no encryption key was written, and from DECODE exactly
when no decryption key was written or its declared size is zero. Nothing but `STATUS` changes, and `OUT` for DECODE: no
draw is counted. The error and its causes are the spec's own decisions D17 and D27. -/
def Obligations.BadOperandCauses : Prop :=
  (∀ s t : State, exec .encode s = .next t → (t.status = 0x52 ↔ s.ekey = none) ∧
    (t.status = 0x52 → t = { s with status := 0x52 })) ∧
  ∀ s t : State, exec .decode s = .next t →
    (t.status = 0x52 ↔ s.dkey = none ∨ ∃ k, s.dkey = some k ∧ k.sizeBits = 0) ∧
    (t.status = 0x52 → t = { s with out := [], status := 0x52 })

/-- R152: for every cipher, `PayloadTooLarge` comes from ENCODE exactly when the payload just built exceeds the capacity,
after both draws (counted in the model's own field, log entry 5), with only `STATUS` changed; and from CAPCHK exactly
when `PLEN` exceeds the capacity, with `CAP` and `STATUS` changed. -/
def Obligations.PayloadTooLargeCauses : Prop :=
  (∀ (P : CipherPort) (s t : State), execOver P .encode s = .next t →
    (t.status = 0x22 ↔ ∃ k, s.ekey = some k ∧ containsText s.msg P.sentinel = false ∧
      s.width.toNat * s.height.toNat * 3 / 8 < (framePayload P k s.msg s).1.length) ∧
    (t.status = 0x22 → t = { s with status := 0x22, draws := s.draws + 2 })) ∧
  ∀ s t : State, exec .capchk s = .next t →
    (t.status = 0x22 ↔ s.width.toNat * s.height.toNat * 3 / 8 < s.plen.toNat) ∧
    (t.status = 0x22 → t.cap.toNat = s.width.toNat * s.height.toNat * 3 / 8 ∧
      t = { s with cap := t.cap, status := 0x22 })

/-- R153: `SentinelNotFound` comes from DECODE exactly when there is a usable key and every whole block of the candidate
byte stream decrypts to something other than the sentinel; then `OUT` is empty, `STATUS` changed and nothing else. -/
def Obligations.SentinelNotFoundCause : Prop :=
  ∀ s t : State, exec .decode s = .next t →
    (t.status = 0x32 ↔ ∃ k, s.dkey = some k ∧ k.sizeBits ≠ 0 ∧
      ∀ q, (q + 1) * blockSize k ≤ s.candidateBytes.length →
        Config.cipher.decrypt k (blockAt s.candidateBytes (blockSize k) (q * blockSize k)) ≠ Config.cipher.sentinel) ∧
    (t.status = 0x32 → t = { s with out := [], status := 0x32 })

/-- R163: an error is not sticky: what a command does is the same whatever `STATUS` held, and it overwrites it whole. -/
def Obligations.StatusIsNotSticky : Prop :=
  ∀ (i : Instr) (s : State) (v : BitVec 8), exec i { s with status := v } = exec i s

/-! ### Reset and the host's actions -/

/-- R44: the state after reset. -/
def Obligations.ResetValues : Prop :=
  State.reset.status = 0x00 ∧ State.reset.byte = 0x00 ∧
  State.reset.bits = #v[false, false, false, false, false, false, false, false] ∧
  State.reset.plen = 0 ∧ State.reset.cap = 0 ∧ State.reset.width = 0 ∧ State.reset.height = 0 ∧
  State.reset.ekey = none ∧ State.reset.dkey = none ∧ State.reset.msg = [] ∧ State.reset.out = [] ∧
  State.reset.img = [] ∧ State.reset.imgSize = 0

/-- R180 with log entry 14: the host's reset puts every piece of the machine's state at its reset value; the model's own
three fields, which are the host's side and the number of the draw, stay. -/
def Obligations.HostResetRestoresResetValues : Prop :=
  ∀ (s : State) (rest : List HostAction), s.pending = .reset :: rest →
    step s = .next { State.reset with pending := rest, reply := s.reply, draws := s.draws }

/-- R184: what each command does right after reset. -/
def Obligations.CommandsRightAfterReset : Prop :=
  step (State.reset.withFetchWord 8 0x01) = .next { State.reset with status := 0x01 } ∧
  step (State.reset.withFetchWord 8 0x02) = .next { State.reset with status := 0x01 } ∧
  step (State.reset.withFetchWord 8 0x03) = .next { State.reset with status := 0x01 } ∧
  step (State.reset.withFetchWord 8 0x04) = .next { State.reset with status := 0x52 } ∧
  step (State.reset.withFetchWord 8 0x05) = .next { State.reset with status := 0x52 }

/-- R33, first row: a host write of a value of the register's type writes that register alone. -/
def Obligations.HostWritesOperandRegisters : Prop :=
  ∀ s : State,
    (∀ v, performAction exec (.write .byte (.word v)) s = .next { s with byte := v }) ∧
    (∀ v, performAction exec (.write .bits (.bits v)) s = .next { s with bits := v }) ∧
    (∀ n, n < 2 ^ (2 * Config.dimw) → ∃ p : Wide, p.toNat = n ∧
      performAction exec (.write .plen (.num n)) s = .next { s with plen := p }) ∧
    (∀ k, performAction exec (.write .ekey (.key k)) s = .next { s with ekey := some k }) ∧
    (∀ k, performAction exec (.write .dkey (.key k)) s = .next { s with dkey := some k }) ∧
    ∀ m, performAction exec (.write .msg (.text m)) s = .next { s with msg := m }

/-- R33, second row: a host write of a read-only register has no effect. That this holds of a value of another type than
the register's too is the model's choice (log entry 10, DESIGN CHOICE): R33 says no more than "always". -/
def Obligations.HostWriteOfReadOnlyRegisterHasNoEffect : Prop :=
  ∀ (s : State) (v : HostValue) (r : Reg),
    r = .status ∨ r = .cap ∨ r = .width ∨ r = .height ∨ r = .out →
    performAction exec (.write r v) s = .next s

/-- R33, third row: a host read returns the register's value (the field `reply`, log entry 11) and has no side effect. -/
def Obligations.HostReadReturnsTheRegister : Prop :=
  ∀ s : State,
    performAction exec (.read .status) s = .next { s with reply := some (.word s.status) } ∧
    performAction exec (.read .byte) s = .next { s with reply := some (.word s.byte) } ∧
    performAction exec (.read .bits) s = .next { s with reply := some (.bits s.bits) } ∧
    performAction exec (.read .plen) s = .next { s with reply := some (.num s.plen.toNat) } ∧
    performAction exec (.read .cap) s = .next { s with reply := some (.num s.cap.toNat) } ∧
    performAction exec (.read .width) s = .next { s with reply := some (.num s.width.toNat) } ∧
    performAction exec (.read .height) s = .next { s with reply := some (.num s.height.toNat) } ∧
    performAction exec (.read .msg) s = .next { s with reply := some (.text s.msg) } ∧
    performAction exec (.read .out) s = .next { s with reply := some (.text s.out) }

/-- R33, fourth row, R21, R28: `CMD` and the key registers cannot be read. -/
def Obligations.HostCannotReadKeysOrCommandPort : Prop :=
  ∀ (s : State) (r : Reg), r = .cmd ∨ r = .ekey ∨ r = .dkey →
    performAction exec (.read r) s = .refused (.hostNoSuchRead r)

/-- R33, fifth row, R34: an attach that is allowed sets the dimensions and every cell, and nothing else; one with a
dimension too wide or data of another length has no step (a refusal, log entry 10). That the cells are written down in
canonical form, `t.img.wf`, is the model's own representation (log entry 12, DESIGN CHOICE) and no rule of the spec. -/
def Obligations.AttachSuppliesEveryCell : Prop :=
  ∀ (s : State) (w h : Nat) (data : List Byte),
    (w < 2 ^ Config.dimw → h < 2 ^ Config.dimw → data.length = w * h * 3 →
      ∃ t, performAction exec (.attach w h data) s = .next t ∧
        t = { s with width := t.width, height := t.height, img := t.img } ∧
        t.width.toNat = w ∧ t.height.toNat = h ∧ t.imgSize = w * h * 3 ∧
        t.img.wf = true ∧ t.img.below t.imgSize = true ∧
        ∀ (a : Nat) (ha : a < data.length), t.img.read a = data[a]) ∧
    (2 ^ Config.dimw ≤ w ∨ 2 ^ Config.dimw ≤ h ∨ data.length ≠ w * h * 3 →
      performAction exec (.attach w h data) s = .refused .hostAttachShape)

/-- R33, sixth and seventh rows, R59: the host reads and writes the cells that exist, one at a time; an access to a cell
that does not exist has no step. The memory is in canonical form, which every step keeps (log entry 12). -/
def Obligations.HostAccessesExistingCells : Prop :=
  ∀ (s : State) (a : Nat) (v : Byte),
    (a < s.imgSize → performAction exec (.imgRead a) s = .next { s with reply := some (.word (s.img.read a)) }) ∧
    (a < s.imgSize → s.img.wf = true → ∃ t, performAction exec (.imgWrite a v) s = .next t ∧
      t = { s with img := t.img } ∧ t.img.read a = v ∧ ∀ b, b ≠ a → t.img.read b = s.img.read b) ∧
    (s.imgSize ≤ a → performAction exec (.imgRead a) s = .refused (.hostImgAddress a) ∧
      performAction exec (.imgWrite a v) s = .refused (.hostImgAddress a))

/-- R83: each pseudo-command is its `SET` lines and then its command. -/
def Obligations.PseudoCommandsCallTheCommands : Prop :=
  ∀ s : State,
    (∀ v, (runScript exec (callTobits v) s).outcome = exec .tobits { s with byte := v }) ∧
    (∀ b, (runScript exec (callFrombits b) s).outcome = exec .frombits { s with bits := b }) ∧
    (∀ p : Wide, (runScript exec (callCapchk p.toNat) s).outcome = exec .capchk { s with plen := p }) ∧
    (∀ m k, (runScript exec (callEncode m k) s).outcome = exec .encode { s with msg := m, ekey := some k }) ∧
    ∀ k, (runScript exec (callDecode k) s).outcome = exec .decode { s with dkey := some k }

/-! ### The address space -/

/-- R52: row by row, pixel by pixel, channel by channel is ascending address. -/
def Obligations.TraversalIsAscending : Prop :=
  ∀ w h : Nat, traversal w h = List.range (w * h * 3)

/-- R51: the address of a cell and the position of an address undo each other. -/
def Obligations.CellAddressAndPositionAgree : Prop :=
  (∀ w h r c k : Nat, r < h → c < w → k < 3 →
    cellAddress w r c k < w * h * 3 ∧ cellPosition w (cellAddress w r c k) = (r, c, k)) ∧
  ∀ w a : Nat, 1 ≤ w →
    cellAddress w (cellPosition w a).1 (cellPosition w a).2.1 (cellPosition w a).2.2 = a

/-! ### The whole machine -/

/-- The reset state meets the invariant. -/
def Obligations.ResetMeetsTheInvariant : Prop := State.reset.Inv

/-- R22, R26, R34: every step keeps the invariant: `STATUS` one of its seven values, `CAP` within its bound, IMG in
canonical form with exactly `WIDTH*HEIGHT*3` cells. -/
def Obligations.StepKeepsTheInvariant : Prop :=
  ∀ s t : State, s.Inv → step s = .next t → t.Inv

/-- R54: the engine never generates an address that does not exist: no step faults, in any state. -/
def Obligations.NoStepFaults : Prop := ∀ (s : State) (f : Fault), step s ≠ .fault f

/-- R22, R26, R27, R30: who writes the registers the host cannot write. `STATUS` changes only when the host writes `CMD`
or resets; `CAP` only by CAPCHK or reset; `OUT` only by DECODE or reset; `WIDTH` and `HEIGHT` only by an attach or
reset. -/
def Obligations.WritersOfTheReadOnlyRegisters : Prop :=
  ∀ (s t : State), step s = .next t →
    (t.status ≠ s.status → ∃ rest, s.pending = .reset :: rest ∨ ∃ w, s.pending = .write .cmd (.word w) :: rest) ∧
    (t.cap ≠ s.cap → ∃ rest, s.pending = .reset :: rest ∨ s.pending = .write .cmd (.word 0x03) :: rest) ∧
    (t.out ≠ s.out → ∃ rest, s.pending = .reset :: rest ∨ s.pending = .write .cmd (.word 0x05) :: rest) ∧
    (t.width ≠ s.width ∨ t.height ≠ s.height →
      ∃ rest, s.pending = .reset :: rest ∨ ∃ w h data, s.pending = .attach w h data :: rest)

/-- R28, R29, R25: no command changes `EKEY`, `DKEY`, `MSG` or `PLEN`, and no step but a host write of the register or a
reset does. -/
def Obligations.WritersOfTheOperandRegisters : Prop :=
  ∀ (s t : State), step s = .next t →
    (t.ekey ≠ s.ekey → ∃ rest, s.pending = .reset :: rest ∨ ∃ k, s.pending = .write .ekey (.key k) :: rest) ∧
    (t.dkey ≠ s.dkey → ∃ rest, s.pending = .reset :: rest ∨ ∃ k, s.pending = .write .dkey (.key k) :: rest) ∧
    (t.msg ≠ s.msg → ∃ rest, s.pending = .reset :: rest ∨ ∃ m, s.pending = .write .msg (.text m) :: rest) ∧
    (t.plen ≠ s.plen → ∃ rest, s.pending = .reset :: rest ∨ ∃ n, s.pending = .write .plen (.num n) :: rest)
end

