-- ==== Sys2Proof/Laws/State.lean ====
section
/-! SUPPORT. One lemma per field per update of the state. -/

namespace Sys2Proof.Machine

@[simp] theorem setStatus_status (s : State) (v : BitVec 8) : (s.setStatus v).status = v := rfl
@[simp] theorem setStatus_byte (s : State) (v : BitVec 8) : (s.setStatus v).byte = s.byte := rfl
@[simp] theorem setStatus_bits (s : State) (v : BitVec 8) : (s.setStatus v).bits = s.bits := rfl
@[simp] theorem setStatus_plen (s : State) (v : BitVec 8) : (s.setStatus v).plen = s.plen := rfl
@[simp] theorem setStatus_cap (s : State) (v : BitVec 8) : (s.setStatus v).cap = s.cap := rfl
@[simp] theorem setStatus_width (s : State) (v : BitVec 8) : (s.setStatus v).width = s.width := rfl
@[simp] theorem setStatus_height (s : State) (v : BitVec 8) : (s.setStatus v).height = s.height := rfl
@[simp] theorem setStatus_ekey (s : State) (v : BitVec 8) : (s.setStatus v).ekey = s.ekey := rfl
@[simp] theorem setStatus_dkey (s : State) (v : BitVec 8) : (s.setStatus v).dkey = s.dkey := rfl
@[simp] theorem setStatus_msg (s : State) (v : BitVec 8) : (s.setStatus v).msg = s.msg := rfl
@[simp] theorem setStatus_out (s : State) (v : BitVec 8) : (s.setStatus v).out = s.out := rfl
@[simp] theorem setStatus_img (s : State) (v : BitVec 8) : (s.setStatus v).img = s.img := rfl
@[simp] theorem setStatus_pending (s : State) (v : BitVec 8) : (s.setStatus v).pending = s.pending := rfl
@[simp] theorem setStatus_reply (s : State) (v : BitVec 8) : (s.setStatus v).reply = s.reply := rfl
@[simp] theorem setStatus_draws (s : State) (v : BitVec 8) : (s.setStatus v).draws = s.draws := rfl
@[simp] theorem setStatus_imgSize (s : State) (v : BitVec 8) : (s.setStatus v).imgSize = s.imgSize := rfl
@[simp] theorem setStatus_capacity (s : State) (v : BitVec 8) : (s.setStatus v).capacity = s.capacity := rfl

@[simp] theorem setByte_status (s : State) (v : Byte) : (s.setByte v).status = s.status := rfl
@[simp] theorem setByte_byte (s : State) (v : Byte) : (s.setByte v).byte = v := rfl
@[simp] theorem setByte_bits (s : State) (v : Byte) : (s.setByte v).bits = s.bits := rfl
@[simp] theorem setByte_plen (s : State) (v : Byte) : (s.setByte v).plen = s.plen := rfl
@[simp] theorem setByte_cap (s : State) (v : Byte) : (s.setByte v).cap = s.cap := rfl
@[simp] theorem setByte_width (s : State) (v : Byte) : (s.setByte v).width = s.width := rfl
@[simp] theorem setByte_height (s : State) (v : Byte) : (s.setByte v).height = s.height := rfl
@[simp] theorem setByte_ekey (s : State) (v : Byte) : (s.setByte v).ekey = s.ekey := rfl
@[simp] theorem setByte_dkey (s : State) (v : Byte) : (s.setByte v).dkey = s.dkey := rfl
@[simp] theorem setByte_msg (s : State) (v : Byte) : (s.setByte v).msg = s.msg := rfl
@[simp] theorem setByte_out (s : State) (v : Byte) : (s.setByte v).out = s.out := rfl
@[simp] theorem setByte_img (s : State) (v : Byte) : (s.setByte v).img = s.img := rfl
@[simp] theorem setByte_pending (s : State) (v : Byte) : (s.setByte v).pending = s.pending := rfl
@[simp] theorem setByte_reply (s : State) (v : Byte) : (s.setByte v).reply = s.reply := rfl
@[simp] theorem setByte_draws (s : State) (v : Byte) : (s.setByte v).draws = s.draws := rfl
@[simp] theorem setByte_imgSize (s : State) (v : Byte) : (s.setByte v).imgSize = s.imgSize := rfl
@[simp] theorem setByte_capacity (s : State) (v : Byte) : (s.setByte v).capacity = s.capacity := rfl

@[simp] theorem setBits_status (s : State) (v : Bits8) : (s.setBits v).status = s.status := rfl
@[simp] theorem setBits_byte (s : State) (v : Bits8) : (s.setBits v).byte = s.byte := rfl
@[simp] theorem setBits_bits (s : State) (v : Bits8) : (s.setBits v).bits = v := rfl
@[simp] theorem setBits_plen (s : State) (v : Bits8) : (s.setBits v).plen = s.plen := rfl
@[simp] theorem setBits_cap (s : State) (v : Bits8) : (s.setBits v).cap = s.cap := rfl
@[simp] theorem setBits_width (s : State) (v : Bits8) : (s.setBits v).width = s.width := rfl
@[simp] theorem setBits_height (s : State) (v : Bits8) : (s.setBits v).height = s.height := rfl
@[simp] theorem setBits_ekey (s : State) (v : Bits8) : (s.setBits v).ekey = s.ekey := rfl
@[simp] theorem setBits_dkey (s : State) (v : Bits8) : (s.setBits v).dkey = s.dkey := rfl
@[simp] theorem setBits_msg (s : State) (v : Bits8) : (s.setBits v).msg = s.msg := rfl
@[simp] theorem setBits_out (s : State) (v : Bits8) : (s.setBits v).out = s.out := rfl
@[simp] theorem setBits_img (s : State) (v : Bits8) : (s.setBits v).img = s.img := rfl
@[simp] theorem setBits_pending (s : State) (v : Bits8) : (s.setBits v).pending = s.pending := rfl
@[simp] theorem setBits_reply (s : State) (v : Bits8) : (s.setBits v).reply = s.reply := rfl
@[simp] theorem setBits_draws (s : State) (v : Bits8) : (s.setBits v).draws = s.draws := rfl
@[simp] theorem setBits_imgSize (s : State) (v : Bits8) : (s.setBits v).imgSize = s.imgSize := rfl
@[simp] theorem setBits_capacity (s : State) (v : Bits8) : (s.setBits v).capacity = s.capacity := rfl

@[simp] theorem setPlen_status (s : State) (v : Wide) : (s.setPlen v).status = s.status := rfl
@[simp] theorem setPlen_byte (s : State) (v : Wide) : (s.setPlen v).byte = s.byte := rfl
@[simp] theorem setPlen_bits (s : State) (v : Wide) : (s.setPlen v).bits = s.bits := rfl
@[simp] theorem setPlen_plen (s : State) (v : Wide) : (s.setPlen v).plen = v := rfl
@[simp] theorem setPlen_cap (s : State) (v : Wide) : (s.setPlen v).cap = s.cap := rfl
@[simp] theorem setPlen_width (s : State) (v : Wide) : (s.setPlen v).width = s.width := rfl
@[simp] theorem setPlen_height (s : State) (v : Wide) : (s.setPlen v).height = s.height := rfl
@[simp] theorem setPlen_ekey (s : State) (v : Wide) : (s.setPlen v).ekey = s.ekey := rfl
@[simp] theorem setPlen_dkey (s : State) (v : Wide) : (s.setPlen v).dkey = s.dkey := rfl
@[simp] theorem setPlen_msg (s : State) (v : Wide) : (s.setPlen v).msg = s.msg := rfl
@[simp] theorem setPlen_out (s : State) (v : Wide) : (s.setPlen v).out = s.out := rfl
@[simp] theorem setPlen_img (s : State) (v : Wide) : (s.setPlen v).img = s.img := rfl
@[simp] theorem setPlen_pending (s : State) (v : Wide) : (s.setPlen v).pending = s.pending := rfl
@[simp] theorem setPlen_reply (s : State) (v : Wide) : (s.setPlen v).reply = s.reply := rfl
@[simp] theorem setPlen_draws (s : State) (v : Wide) : (s.setPlen v).draws = s.draws := rfl
@[simp] theorem setPlen_imgSize (s : State) (v : Wide) : (s.setPlen v).imgSize = s.imgSize := rfl
@[simp] theorem setPlen_capacity (s : State) (v : Wide) : (s.setPlen v).capacity = s.capacity := rfl

@[simp] theorem setCap_status (s : State) (v : Wide) : (s.setCap v).status = s.status := rfl
@[simp] theorem setCap_byte (s : State) (v : Wide) : (s.setCap v).byte = s.byte := rfl
@[simp] theorem setCap_bits (s : State) (v : Wide) : (s.setCap v).bits = s.bits := rfl
@[simp] theorem setCap_plen (s : State) (v : Wide) : (s.setCap v).plen = s.plen := rfl
@[simp] theorem setCap_cap (s : State) (v : Wide) : (s.setCap v).cap = v := rfl
@[simp] theorem setCap_width (s : State) (v : Wide) : (s.setCap v).width = s.width := rfl
@[simp] theorem setCap_height (s : State) (v : Wide) : (s.setCap v).height = s.height := rfl
@[simp] theorem setCap_ekey (s : State) (v : Wide) : (s.setCap v).ekey = s.ekey := rfl
@[simp] theorem setCap_dkey (s : State) (v : Wide) : (s.setCap v).dkey = s.dkey := rfl
@[simp] theorem setCap_msg (s : State) (v : Wide) : (s.setCap v).msg = s.msg := rfl
@[simp] theorem setCap_out (s : State) (v : Wide) : (s.setCap v).out = s.out := rfl
@[simp] theorem setCap_img (s : State) (v : Wide) : (s.setCap v).img = s.img := rfl
@[simp] theorem setCap_pending (s : State) (v : Wide) : (s.setCap v).pending = s.pending := rfl
@[simp] theorem setCap_reply (s : State) (v : Wide) : (s.setCap v).reply = s.reply := rfl
@[simp] theorem setCap_draws (s : State) (v : Wide) : (s.setCap v).draws = s.draws := rfl
@[simp] theorem setCap_imgSize (s : State) (v : Wide) : (s.setCap v).imgSize = s.imgSize := rfl
@[simp] theorem setCap_capacity (s : State) (v : Wide) : (s.setCap v).capacity = s.capacity := rfl

@[simp] theorem setEkey_status (s : State) (v : Key) : (s.setEkey v).status = s.status := rfl
@[simp] theorem setEkey_byte (s : State) (v : Key) : (s.setEkey v).byte = s.byte := rfl
@[simp] theorem setEkey_bits (s : State) (v : Key) : (s.setEkey v).bits = s.bits := rfl
@[simp] theorem setEkey_plen (s : State) (v : Key) : (s.setEkey v).plen = s.plen := rfl
@[simp] theorem setEkey_cap (s : State) (v : Key) : (s.setEkey v).cap = s.cap := rfl
@[simp] theorem setEkey_width (s : State) (v : Key) : (s.setEkey v).width = s.width := rfl
@[simp] theorem setEkey_height (s : State) (v : Key) : (s.setEkey v).height = s.height := rfl
@[simp] theorem setEkey_ekey (s : State) (v : Key) : (s.setEkey v).ekey = some v := rfl
@[simp] theorem setEkey_dkey (s : State) (v : Key) : (s.setEkey v).dkey = s.dkey := rfl
@[simp] theorem setEkey_msg (s : State) (v : Key) : (s.setEkey v).msg = s.msg := rfl
@[simp] theorem setEkey_out (s : State) (v : Key) : (s.setEkey v).out = s.out := rfl
@[simp] theorem setEkey_img (s : State) (v : Key) : (s.setEkey v).img = s.img := rfl
@[simp] theorem setEkey_pending (s : State) (v : Key) : (s.setEkey v).pending = s.pending := rfl
@[simp] theorem setEkey_reply (s : State) (v : Key) : (s.setEkey v).reply = s.reply := rfl
@[simp] theorem setEkey_draws (s : State) (v : Key) : (s.setEkey v).draws = s.draws := rfl
@[simp] theorem setEkey_imgSize (s : State) (v : Key) : (s.setEkey v).imgSize = s.imgSize := rfl
@[simp] theorem setEkey_capacity (s : State) (v : Key) : (s.setEkey v).capacity = s.capacity := rfl

@[simp] theorem setDkey_status (s : State) (v : Key) : (s.setDkey v).status = s.status := rfl
@[simp] theorem setDkey_byte (s : State) (v : Key) : (s.setDkey v).byte = s.byte := rfl
@[simp] theorem setDkey_bits (s : State) (v : Key) : (s.setDkey v).bits = s.bits := rfl
@[simp] theorem setDkey_plen (s : State) (v : Key) : (s.setDkey v).plen = s.plen := rfl
@[simp] theorem setDkey_cap (s : State) (v : Key) : (s.setDkey v).cap = s.cap := rfl
@[simp] theorem setDkey_width (s : State) (v : Key) : (s.setDkey v).width = s.width := rfl
@[simp] theorem setDkey_height (s : State) (v : Key) : (s.setDkey v).height = s.height := rfl
@[simp] theorem setDkey_ekey (s : State) (v : Key) : (s.setDkey v).ekey = s.ekey := rfl
@[simp] theorem setDkey_dkey (s : State) (v : Key) : (s.setDkey v).dkey = some v := rfl
@[simp] theorem setDkey_msg (s : State) (v : Key) : (s.setDkey v).msg = s.msg := rfl
@[simp] theorem setDkey_out (s : State) (v : Key) : (s.setDkey v).out = s.out := rfl
@[simp] theorem setDkey_img (s : State) (v : Key) : (s.setDkey v).img = s.img := rfl
@[simp] theorem setDkey_pending (s : State) (v : Key) : (s.setDkey v).pending = s.pending := rfl
@[simp] theorem setDkey_reply (s : State) (v : Key) : (s.setDkey v).reply = s.reply := rfl
@[simp] theorem setDkey_draws (s : State) (v : Key) : (s.setDkey v).draws = s.draws := rfl
@[simp] theorem setDkey_imgSize (s : State) (v : Key) : (s.setDkey v).imgSize = s.imgSize := rfl
@[simp] theorem setDkey_capacity (s : State) (v : Key) : (s.setDkey v).capacity = s.capacity := rfl

@[simp] theorem setMsg_status (s : State) (v : Text) : (s.setMsg v).status = s.status := rfl
@[simp] theorem setMsg_byte (s : State) (v : Text) : (s.setMsg v).byte = s.byte := rfl
@[simp] theorem setMsg_bits (s : State) (v : Text) : (s.setMsg v).bits = s.bits := rfl
@[simp] theorem setMsg_plen (s : State) (v : Text) : (s.setMsg v).plen = s.plen := rfl
@[simp] theorem setMsg_cap (s : State) (v : Text) : (s.setMsg v).cap = s.cap := rfl
@[simp] theorem setMsg_width (s : State) (v : Text) : (s.setMsg v).width = s.width := rfl
@[simp] theorem setMsg_height (s : State) (v : Text) : (s.setMsg v).height = s.height := rfl
@[simp] theorem setMsg_ekey (s : State) (v : Text) : (s.setMsg v).ekey = s.ekey := rfl
@[simp] theorem setMsg_dkey (s : State) (v : Text) : (s.setMsg v).dkey = s.dkey := rfl
@[simp] theorem setMsg_msg (s : State) (v : Text) : (s.setMsg v).msg = v := rfl
@[simp] theorem setMsg_out (s : State) (v : Text) : (s.setMsg v).out = s.out := rfl
@[simp] theorem setMsg_img (s : State) (v : Text) : (s.setMsg v).img = s.img := rfl
@[simp] theorem setMsg_pending (s : State) (v : Text) : (s.setMsg v).pending = s.pending := rfl
@[simp] theorem setMsg_reply (s : State) (v : Text) : (s.setMsg v).reply = s.reply := rfl
@[simp] theorem setMsg_draws (s : State) (v : Text) : (s.setMsg v).draws = s.draws := rfl
@[simp] theorem setMsg_imgSize (s : State) (v : Text) : (s.setMsg v).imgSize = s.imgSize := rfl
@[simp] theorem setMsg_capacity (s : State) (v : Text) : (s.setMsg v).capacity = s.capacity := rfl

@[simp] theorem setOut_status (s : State) (v : Text) : (s.setOut v).status = s.status := rfl
@[simp] theorem setOut_byte (s : State) (v : Text) : (s.setOut v).byte = s.byte := rfl
@[simp] theorem setOut_bits (s : State) (v : Text) : (s.setOut v).bits = s.bits := rfl
@[simp] theorem setOut_plen (s : State) (v : Text) : (s.setOut v).plen = s.plen := rfl
@[simp] theorem setOut_cap (s : State) (v : Text) : (s.setOut v).cap = s.cap := rfl
@[simp] theorem setOut_width (s : State) (v : Text) : (s.setOut v).width = s.width := rfl
@[simp] theorem setOut_height (s : State) (v : Text) : (s.setOut v).height = s.height := rfl
@[simp] theorem setOut_ekey (s : State) (v : Text) : (s.setOut v).ekey = s.ekey := rfl
@[simp] theorem setOut_dkey (s : State) (v : Text) : (s.setOut v).dkey = s.dkey := rfl
@[simp] theorem setOut_msg (s : State) (v : Text) : (s.setOut v).msg = s.msg := rfl
@[simp] theorem setOut_out (s : State) (v : Text) : (s.setOut v).out = v := rfl
@[simp] theorem setOut_img (s : State) (v : Text) : (s.setOut v).img = s.img := rfl
@[simp] theorem setOut_pending (s : State) (v : Text) : (s.setOut v).pending = s.pending := rfl
@[simp] theorem setOut_reply (s : State) (v : Text) : (s.setOut v).reply = s.reply := rfl
@[simp] theorem setOut_draws (s : State) (v : Text) : (s.setOut v).draws = s.draws := rfl
@[simp] theorem setOut_imgSize (s : State) (v : Text) : (s.setOut v).imgSize = s.imgSize := rfl
@[simp] theorem setOut_capacity (s : State) (v : Text) : (s.setOut v).capacity = s.capacity := rfl

@[simp] theorem setImg_status (s : State) (v : Memory) : (s.setImg v).status = s.status := rfl
@[simp] theorem setImg_byte (s : State) (v : Memory) : (s.setImg v).byte = s.byte := rfl
@[simp] theorem setImg_bits (s : State) (v : Memory) : (s.setImg v).bits = s.bits := rfl
@[simp] theorem setImg_plen (s : State) (v : Memory) : (s.setImg v).plen = s.plen := rfl
@[simp] theorem setImg_cap (s : State) (v : Memory) : (s.setImg v).cap = s.cap := rfl
@[simp] theorem setImg_width (s : State) (v : Memory) : (s.setImg v).width = s.width := rfl
@[simp] theorem setImg_height (s : State) (v : Memory) : (s.setImg v).height = s.height := rfl
@[simp] theorem setImg_ekey (s : State) (v : Memory) : (s.setImg v).ekey = s.ekey := rfl
@[simp] theorem setImg_dkey (s : State) (v : Memory) : (s.setImg v).dkey = s.dkey := rfl
@[simp] theorem setImg_msg (s : State) (v : Memory) : (s.setImg v).msg = s.msg := rfl
@[simp] theorem setImg_out (s : State) (v : Memory) : (s.setImg v).out = s.out := rfl
@[simp] theorem setImg_img (s : State) (v : Memory) : (s.setImg v).img = v := rfl
@[simp] theorem setImg_pending (s : State) (v : Memory) : (s.setImg v).pending = s.pending := rfl
@[simp] theorem setImg_reply (s : State) (v : Memory) : (s.setImg v).reply = s.reply := rfl
@[simp] theorem setImg_draws (s : State) (v : Memory) : (s.setImg v).draws = s.draws := rfl
@[simp] theorem setImg_imgSize (s : State) (v : Memory) : (s.setImg v).imgSize = s.imgSize := rfl
@[simp] theorem setImg_capacity (s : State) (v : Memory) : (s.setImg v).capacity = s.capacity := rfl

@[simp] theorem setPending_status (s : State) (v : List HostAction) : (s.setPending v).status = s.status := rfl
@[simp] theorem setPending_byte (s : State) (v : List HostAction) : (s.setPending v).byte = s.byte := rfl
@[simp] theorem setPending_bits (s : State) (v : List HostAction) : (s.setPending v).bits = s.bits := rfl
@[simp] theorem setPending_plen (s : State) (v : List HostAction) : (s.setPending v).plen = s.plen := rfl
@[simp] theorem setPending_cap (s : State) (v : List HostAction) : (s.setPending v).cap = s.cap := rfl
@[simp] theorem setPending_width (s : State) (v : List HostAction) : (s.setPending v).width = s.width := rfl
@[simp] theorem setPending_height (s : State) (v : List HostAction) : (s.setPending v).height = s.height := rfl
@[simp] theorem setPending_ekey (s : State) (v : List HostAction) : (s.setPending v).ekey = s.ekey := rfl
@[simp] theorem setPending_dkey (s : State) (v : List HostAction) : (s.setPending v).dkey = s.dkey := rfl
@[simp] theorem setPending_msg (s : State) (v : List HostAction) : (s.setPending v).msg = s.msg := rfl
@[simp] theorem setPending_out (s : State) (v : List HostAction) : (s.setPending v).out = s.out := rfl
@[simp] theorem setPending_img (s : State) (v : List HostAction) : (s.setPending v).img = s.img := rfl
@[simp] theorem setPending_pending (s : State) (v : List HostAction) : (s.setPending v).pending = v := rfl
@[simp] theorem setPending_reply (s : State) (v : List HostAction) : (s.setPending v).reply = s.reply := rfl
@[simp] theorem setPending_draws (s : State) (v : List HostAction) : (s.setPending v).draws = s.draws := rfl
@[simp] theorem setPending_imgSize (s : State) (v : List HostAction) : (s.setPending v).imgSize = s.imgSize := rfl
@[simp] theorem setPending_capacity (s : State) (v : List HostAction) : (s.setPending v).capacity = s.capacity := rfl

@[simp] theorem setReply_status (s : State) (v : HostValue) : (s.setReply v).status = s.status := rfl
@[simp] theorem setReply_byte (s : State) (v : HostValue) : (s.setReply v).byte = s.byte := rfl
@[simp] theorem setReply_bits (s : State) (v : HostValue) : (s.setReply v).bits = s.bits := rfl
@[simp] theorem setReply_plen (s : State) (v : HostValue) : (s.setReply v).plen = s.plen := rfl
@[simp] theorem setReply_cap (s : State) (v : HostValue) : (s.setReply v).cap = s.cap := rfl
@[simp] theorem setReply_width (s : State) (v : HostValue) : (s.setReply v).width = s.width := rfl
@[simp] theorem setReply_height (s : State) (v : HostValue) : (s.setReply v).height = s.height := rfl
@[simp] theorem setReply_ekey (s : State) (v : HostValue) : (s.setReply v).ekey = s.ekey := rfl
@[simp] theorem setReply_dkey (s : State) (v : HostValue) : (s.setReply v).dkey = s.dkey := rfl
@[simp] theorem setReply_msg (s : State) (v : HostValue) : (s.setReply v).msg = s.msg := rfl
@[simp] theorem setReply_out (s : State) (v : HostValue) : (s.setReply v).out = s.out := rfl
@[simp] theorem setReply_img (s : State) (v : HostValue) : (s.setReply v).img = s.img := rfl
@[simp] theorem setReply_pending (s : State) (v : HostValue) : (s.setReply v).pending = s.pending := rfl
@[simp] theorem setReply_reply (s : State) (v : HostValue) : (s.setReply v).reply = some v := rfl
@[simp] theorem setReply_draws (s : State) (v : HostValue) : (s.setReply v).draws = s.draws := rfl
@[simp] theorem setReply_imgSize (s : State) (v : HostValue) : (s.setReply v).imgSize = s.imgSize := rfl
@[simp] theorem setReply_capacity (s : State) (v : HostValue) : (s.setReply v).capacity = s.capacity := rfl

@[simp] theorem setDraws_status (s : State) (v : Nat) : (s.setDraws v).status = s.status := rfl
@[simp] theorem setDraws_byte (s : State) (v : Nat) : (s.setDraws v).byte = s.byte := rfl
@[simp] theorem setDraws_bits (s : State) (v : Nat) : (s.setDraws v).bits = s.bits := rfl
@[simp] theorem setDraws_plen (s : State) (v : Nat) : (s.setDraws v).plen = s.plen := rfl
@[simp] theorem setDraws_cap (s : State) (v : Nat) : (s.setDraws v).cap = s.cap := rfl
@[simp] theorem setDraws_width (s : State) (v : Nat) : (s.setDraws v).width = s.width := rfl
@[simp] theorem setDraws_height (s : State) (v : Nat) : (s.setDraws v).height = s.height := rfl
@[simp] theorem setDraws_ekey (s : State) (v : Nat) : (s.setDraws v).ekey = s.ekey := rfl
@[simp] theorem setDraws_dkey (s : State) (v : Nat) : (s.setDraws v).dkey = s.dkey := rfl
@[simp] theorem setDraws_msg (s : State) (v : Nat) : (s.setDraws v).msg = s.msg := rfl
@[simp] theorem setDraws_out (s : State) (v : Nat) : (s.setDraws v).out = s.out := rfl
@[simp] theorem setDraws_img (s : State) (v : Nat) : (s.setDraws v).img = s.img := rfl
@[simp] theorem setDraws_pending (s : State) (v : Nat) : (s.setDraws v).pending = s.pending := rfl
@[simp] theorem setDraws_reply (s : State) (v : Nat) : (s.setDraws v).reply = s.reply := rfl
@[simp] theorem setDraws_draws (s : State) (v : Nat) : (s.setDraws v).draws = v := rfl
@[simp] theorem setDraws_imgSize (s : State) (v : Nat) : (s.setDraws v).imgSize = s.imgSize := rfl
@[simp] theorem setDraws_capacity (s : State) (v : Nat) : (s.setDraws v).capacity = s.capacity := rfl

@[simp] theorem setImage_status (s : State) (w h : Dim) (m : Memory) : (s.setImage w h m).status = s.status := rfl
@[simp] theorem setImage_byte (s : State) (w h : Dim) (m : Memory) : (s.setImage w h m).byte = s.byte := rfl
@[simp] theorem setImage_bits (s : State) (w h : Dim) (m : Memory) : (s.setImage w h m).bits = s.bits := rfl
@[simp] theorem setImage_plen (s : State) (w h : Dim) (m : Memory) : (s.setImage w h m).plen = s.plen := rfl
@[simp] theorem setImage_cap (s : State) (w h : Dim) (m : Memory) : (s.setImage w h m).cap = s.cap := rfl
@[simp] theorem setImage_width (s : State) (w h : Dim) (m : Memory) : (s.setImage w h m).width = w := rfl
@[simp] theorem setImage_height (s : State) (w h : Dim) (m : Memory) : (s.setImage w h m).height = h := rfl
@[simp] theorem setImage_ekey (s : State) (w h : Dim) (m : Memory) : (s.setImage w h m).ekey = s.ekey := rfl
@[simp] theorem setImage_dkey (s : State) (w h : Dim) (m : Memory) : (s.setImage w h m).dkey = s.dkey := rfl
@[simp] theorem setImage_msg (s : State) (w h : Dim) (m : Memory) : (s.setImage w h m).msg = s.msg := rfl
@[simp] theorem setImage_out (s : State) (w h : Dim) (m : Memory) : (s.setImage w h m).out = s.out := rfl
@[simp] theorem setImage_img (s : State) (w h : Dim) (m : Memory) : (s.setImage w h m).img = m := rfl
@[simp] theorem setImage_pending (s : State) (w h : Dim) (m : Memory) : (s.setImage w h m).pending = s.pending := rfl
@[simp] theorem setImage_reply (s : State) (w h : Dim) (m : Memory) : (s.setImage w h m).reply = s.reply := rfl
@[simp] theorem setImage_draws (s : State) (w h : Dim) (m : Memory) : (s.setImage w h m).draws = s.draws := rfl
@[simp] theorem setImage_imgSize (s : State) (w h : Dim) (m : Memory) :
    (s.setImage w h m).imgSize = bitCapacity w.toNat h.toNat := rfl

/-- Taking the pending actions back as they are changes nothing. -/
@[simp] theorem setPending_self (s : State) : s.setPending s.pending = s := rfl

@[simp] theorem setPending_setPending (s : State) (l l' : List HostAction) :
    (s.setPending l).setPending l' = s.setPending l' := rfl

end Sys2Proof.Machine
end

