-- ==== Sys2Proof/Laws/Memory.lean ====
section
/-! SUPPORT. The laws of IMG: reading after writing, canonical form, the bound on the cells. -/

namespace Sys2Proof.Machine

/-- A read below every listed address gives the unlisted byte. -/
theorem Memory.read_of_lt : ∀ (m : Memory) (lo a : Nat), m.wfFrom lo = true → a < lo → m.read a = unlistedByte
  | [], _, _, _, _ => rfl
  | (b, v) :: m, lo, a, h, ha => by
    simp only [Memory.wfFrom, Bool.and_eq_true, decide_eq_true_eq] at h
    rw [Memory.read, if_neg (by omega)]
    exact Memory.read_of_lt m (b + 1) a h.2 (by omega)

/-- Canonical form from an address on holds from any lower one on. -/
theorem Memory.wfFrom_mono : ∀ (m : Memory) (lo lo' : Nat), lo' ≤ lo → m.wfFrom lo = true → m.wfFrom lo' = true
  | [], _, _, _, _ => rfl
  | (b, v) :: m, lo, lo', hl, h => by
    simp only [Memory.wfFrom, Bool.and_eq_true, decide_eq_true_eq] at h ⊢
    exact ⟨⟨by omega, h.1.2⟩, h.2⟩

/-- A write keeps canonical form. -/
theorem Memory.wfFrom_write : ∀ (m : Memory) (lo a : Nat) (v : Byte), lo ≤ a → m.wfFrom lo = true →
    (m.write a v).wfFrom lo = true
  | [], lo, a, v, ha, _ => by
    by_cases hv : v = unlistedByte
    · simp [Memory.write, hv, Memory.wfFrom]
    · simp [Memory.write, hv, Memory.wfFrom, ha]
  | (b, w) :: m, lo, a, v, ha, h => by
    have h' := h
    simp only [Memory.wfFrom, Bool.and_eq_true, decide_eq_true_eq] at h'
    obtain ⟨⟨hb, hw⟩, hm⟩ := h'
    rw [Memory.write]
    by_cases h1 : a < b
    · rw [if_pos h1]
      by_cases hv : v = unlistedByte
      · rw [if_pos hv]; exact h
      · rw [if_neg hv]
        simp only [Memory.wfFrom, Bool.and_eq_true, decide_eq_true_eq]
        exact ⟨⟨ha, by simp [hv]⟩, ⟨by omega, hw⟩, hm⟩
    · rw [if_neg h1]
      by_cases h2 : a = b
      · rw [if_pos h2]
        by_cases hv : v = unlistedByte
        · rw [if_pos hv]; exact Memory.wfFrom_mono m (b + 1) lo (by omega) hm
        · rw [if_neg hv]
          simp only [Memory.wfFrom, Bool.and_eq_true, decide_eq_true_eq]
          exact ⟨⟨ha, by simp [hv]⟩, by rw [h2]; exact hm⟩
      · rw [if_neg h2]
        simp only [Memory.wfFrom, Bool.and_eq_true, decide_eq_true_eq]
        exact ⟨⟨hb, hw⟩, Memory.wfFrom_write m (b + 1) a v (by omega) hm⟩

theorem Memory.wf_write (m : Memory) (a : Nat) (v : Byte) (h : m.wf = true) : (m.write a v).wf = true :=
  Memory.wfFrom_write m 0 a v (Nat.zero_le a) h

/-- The memory of a byte list is in canonical form. -/
theorem Memory.wfFrom_ofBytes : ∀ (data : List Byte) (a : Nat), (Memory.ofBytes data a).wfFrom a = true
  | [], _ => rfl
  | v :: vs, a => by
    have ih := Memory.wfFrom_ofBytes vs (a + 1)
    rw [Memory.ofBytes]
    by_cases hv : v = unlistedByte
    · rw [if_pos hv]; exact Memory.wfFrom_mono _ (a + 1) a (by omega) ih
    · rw [if_neg hv]
      simp only [Memory.wfFrom, Bool.and_eq_true, decide_eq_true_eq]
      exact ⟨⟨Nat.le_refl a, by simp [hv]⟩, ih⟩

theorem Memory.wf_ofBytes (data : List Byte) : (Memory.ofBytes data 0).wf = true :=
  Memory.wfFrom_ofBytes data 0

/-- Every memory operation keeps canonical form. -/
theorem Memory.operations_wf (m : Memory) (a : Nat) (v : Byte) (data : List Byte) (h : m.wf = true) :
    (m.write a v).wf = true ∧ (Memory.ofBytes data 0).wf = true :=
  ⟨Memory.wf_write m a v h, Memory.wf_ofBytes data⟩

theorem reset_img_wf : State.reset.img.wf = true := rfl

/-- Reading where a byte was just written, in canonical form from an address on. -/
theorem Memory.read_write_same_from : ∀ (m : Memory) (lo a : Nat) (v : Byte), m.wfFrom lo = true →
    (m.write a v).read a = v
  | [], _, a, v, _ => by
    by_cases hv : v = unlistedByte <;> simp [Memory.write, hv, Memory.read]
  | (b, w) :: m, lo, a, v, h => by
    simp only [Memory.wfFrom, Bool.and_eq_true, decide_eq_true_eq] at h
    rw [Memory.write]
    by_cases h1 : a < b
    · rw [if_pos h1]
      by_cases hv : v = unlistedByte
      · rw [if_pos hv, Memory.read, if_neg (by omega), hv]
        exact Memory.read_of_lt m (b + 1) a h.2 (by omega)
      · rw [if_neg hv, Memory.read, if_pos rfl]
    · rw [if_neg h1]
      by_cases h2 : a = b
      · rw [if_pos h2]
        by_cases hv : v = unlistedByte
        · rw [if_pos hv, hv]; exact Memory.read_of_lt m (b + 1) a h.2 (by omega)
        · rw [if_neg hv, Memory.read, if_pos rfl]
      · rw [if_neg h2, Memory.read, if_neg h2]
        exact Memory.read_write_same_from m (b + 1) a v h.2

/-- Reading where a byte was just written. -/
theorem Memory.read_write_same (m : Memory) (a : Nat) (v : Byte) (h : m.wf = true) : (m.write a v).read a = v :=
  Memory.read_write_same_from m 0 a v h

/-- A write leaves every other address as it was, whatever the memory's form. -/
theorem Memory.read_write_other : ∀ (m : Memory) (a b : Nat) (v : Byte), b ≠ a → (m.write a v).read b = m.read b
  | [], a, b, v, hb => by
    by_cases hv : v = unlistedByte <;> simp [Memory.write, hv, Memory.read, hb]
  | (c, w) :: m, a, b, v, hb => by
    rw [Memory.write]
    by_cases h1 : a < c
    · rw [if_pos h1]
      by_cases hv : v = unlistedByte
      · rw [if_pos hv]
      · rw [if_neg hv, Memory.read, if_neg hb]
    · rw [if_neg h1]
      by_cases h2 : a = c
      · rw [if_pos h2]
        have hc : b ≠ c := h2 ▸ hb
        by_cases hv : v = unlistedByte
        · rw [if_pos hv, Memory.read, if_neg hc]
        · rw [if_neg hv, Memory.read, if_neg hb, Memory.read, if_neg hc]
      · rw [if_neg h2, Memory.read, Memory.read, Memory.read_write_other m a b v hb]

/-- A write below the bound keeps the bound. -/
theorem Memory.below_write (n : Nat) : ∀ (m : Memory) (a : Nat) (v : Byte), a < n → m.below n = true →
    (m.write a v).below n = true
  | [], a, v, ha, _ => by
    by_cases hv : v = unlistedByte <;> simp [Memory.write, hv, Memory.below, ha]
  | (b, w) :: m, a, v, ha, h => by
    have h' := h
    simp only [Memory.below, List.all_cons, Bool.and_eq_true, decide_eq_true_eq] at h'
    have ih := Memory.below_write n m a v ha h'.2
    rw [Memory.write]
    by_cases h1 : a < b
    · rw [if_pos h1]
      by_cases hv : v = unlistedByte
      · rw [if_pos hv]; exact h
      · rw [if_neg hv]
        simp only [Memory.below, List.all_cons, Bool.and_eq_true, decide_eq_true_eq]
        exact ⟨ha, h'⟩
    · rw [if_neg h1]
      by_cases h2 : a = b
      · rw [if_pos h2]
        by_cases hv : v = unlistedByte
        · rw [if_pos hv]; exact h'.2
        · rw [if_neg hv]
          simp only [Memory.below, List.all_cons, Bool.and_eq_true, decide_eq_true_eq]
          exact ⟨ha, h'.2⟩
      · rw [if_neg h2]
        simp only [Memory.below, List.all_cons, Bool.and_eq_true, decide_eq_true_eq]
        exact ⟨h'.1, ih⟩

/-- The memory of a byte list stays below the list's end. -/
theorem Memory.below_ofBytes : ∀ (data : List Byte) (a : Nat),
    (Memory.ofBytes data a).below (a + data.length) = true
  | [], _ => rfl
  | v :: vs, a => by
    have ih := Memory.below_ofBytes vs (a + 1)
    rw [show a + 1 + vs.length = a + (v :: vs).length by simp; omega] at ih
    rw [Memory.ofBytes]
    by_cases hv : v = unlistedByte
    · rw [if_pos hv]; exact ih
    · rw [if_neg hv]
      simp only [Memory.below, List.all_cons, Bool.and_eq_true, decide_eq_true_eq]
      exact ⟨by simp, ih⟩

/-- The bytes of a list stand at their addresses. -/
theorem Memory.read_ofBytes : ∀ (data : List Byte) (a i : Nat) (h : i < data.length),
    (Memory.ofBytes data a).read (a + i) = data[i]
  | v :: vs, a, 0, _ => by
    rw [Memory.ofBytes]
    by_cases hv : v = unlistedByte
    · rw [if_pos hv]
      have := Memory.read_of_lt _ (a + 1) a (Memory.wfFrom_ofBytes vs (a + 1)) (by omega)
      simpa [hv] using this
    · rw [if_neg hv]; simp [Memory.read]
  | v :: vs, a, i + 1, h => by
    have hi : i < vs.length := by simpa using h
    have ih := Memory.read_ofBytes vs (a + 1) i hi
    rw [show a + 1 + i = a + (i + 1) by omega] at ih
    rw [Memory.ofBytes]
    by_cases hv : v = unlistedByte
    · rw [if_pos hv]; simpa using ih
    · rw [if_neg hv, Memory.read, if_neg (by omega)]; simpa using ih

/-- Two memories in canonical form that read the same everywhere are the same data. -/
theorem Memory.ext_from : ∀ (m m' : Memory) (lo : Nat), m.wfFrom lo = true → m'.wfFrom lo = true →
    (∀ a, m.read a = m'.read a) → m = m'
  | [], [], _, _, _, _ => rfl
  | [], (b, w) :: m', lo, _, h', hr => by
    simp only [Memory.wfFrom, Bool.and_eq_true, Bool.not_eq_true', decide_eq_false_iff_not] at h'
    have := hr b
    rw [Memory.read, Memory.read, if_pos rfl] at this
    exact absurd this.symm h'.1.2
  | (b, w) :: m, [], lo, h, _, hr => by
    simp only [Memory.wfFrom, Bool.and_eq_true, Bool.not_eq_true', decide_eq_false_iff_not] at h
    exact absurd (by simpa [Memory.read] using hr b) h.1.2
  | (b, w) :: m, (b', w') :: m', lo, h, h', hr => by
    simp only [Memory.wfFrom, Bool.and_eq_true, Bool.not_eq_true', decide_eq_false_iff_not,
      decide_eq_true_eq] at h h'
    have hb : b = b' := by
      rcases Nat.lt_trichotomy b b' with hlt | heq | hgt
      · have := hr b
        rw [Memory.read, if_pos rfl, Memory.read, if_neg (by omega),
          Memory.read_of_lt m' (b' + 1) b h'.2 (by omega)] at this
        exact absurd this h.1.2
      · exact heq
      · have := hr b'
        rw [Memory.read, if_neg (by omega), Memory.read_of_lt m (b + 1) b' h.2 (by omega), Memory.read,
          if_pos rfl] at this
        exact absurd this.symm h'.1.2
    subst hb
    have hw : w = w' := by have := hr b; rwa [Memory.read, if_pos rfl, Memory.read, if_pos rfl] at this
    subst hw
    have hm : m = m' := by
      refine Memory.ext_from m m' (b + 1) h.2 h'.2 fun a => ?_
      by_cases ha : a = b
      · rw [ha, Memory.read_of_lt m (b + 1) b h.2 (by omega), Memory.read_of_lt m' (b + 1) b h'.2 (by omega)]
      · have := hr a
        rwa [Memory.read, if_neg ha, Memory.read, if_neg ha] at this
    rw [hm]

theorem Memory.ext_of_wf (m m' : Memory) (h : m.wf = true) (h' : m'.wf = true) (hr : ∀ a, m.read a = m'.read a) :
    m = m' :=
  Memory.ext_from m m' 0 h h' hr

end Sys2Proof.Machine
end

