-- ==== Sys2Proof/Laws/Ops.lean ====
section
/-! SUPPORT. What each shared operation can do, once: memory accesses, exceptions, completion, the cipher call. -/

namespace Sys2Proof.Machine

/-- A read of an existing cell answers, and of no other. -/
theorem memRead_eq_ok (s : State) (a : Nat) (v : Byte) :
    memRead s a = .ok v ↔ a < s.imgSize ∧ s.img.read a = v := by
  unfold memRead
  split <;> simp_all

theorem memRead_of_lt {s : State} {a : Nat} (h : a < s.imgSize) : memRead s a = .ok (s.img.read a) := if_pos h

/-- A write of an existing cell answers, changes that cell alone, and no other address can be written. -/
theorem memWrite_eq_ok (s t : State) (a : Nat) (v : Byte) :
    memWrite s a v = .ok t ↔ a < s.imgSize ∧ t = s.setImg (s.img.write a v) := by
  unfold memWrite
  split <;> simp_all [eq_comm]

theorem memWrite_of_lt {s : State} {a : Nat} (v : Byte) (h : a < s.imgSize) :
    memWrite s a v = .ok (s.setImg (s.img.write a v)) := if_pos h

theorem memRead_of_le {s : State} {a : Nat} (h : s.imgSize ≤ a) : memRead s a = .error (.imgAddress a) :=
  if_neg (Nat.not_lt.mpr h)

theorem memWrite_of_le {s : State} {a : Nat} (v : Byte) (h : s.imgSize ≤ a) :
    memWrite s a v = .error (.imgAddress a) := if_neg (Nat.not_lt.mpr h)

/-- An exception writes `STATUS`, and `OUT` when the command is DECODE (R160). -/
theorem raiseError_eq (command : Option Instr) (e : Err) (s : State) :
    raiseError command e s =
      if command = some .decode then (s.setOut []).setStatus (statusError e) else s.setStatus (statusError e) := by
  cases command with
  | none => rfl
  | some i => cases i <;> rfl

@[simp] theorem raiseError_status (command : Option Instr) (e : Err) (s : State) :
    (raiseError command e s).status = statusError e := by
  rw [raiseError_eq]; split <;> rfl

@[simp] theorem raiseError_img (command : Option Instr) (e : Err) (s : State) :
    (raiseError command e s).img = s.img := by
  rw [raiseError_eq]; split <;> rfl

@[simp] theorem raiseError_imgSize (command : Option Instr) (e : Err) (s : State) :
    (raiseError command e s).imgSize = s.imgSize := by
  rw [raiseError_eq]; split <;> rfl

@[simp] theorem raiseError_cap (command : Option Instr) (e : Err) (s : State) :
    (raiseError command e s).cap = s.cap := by
  rw [raiseError_eq]; split <;> rfl

@[simp] theorem completeOk_eq (s : State) : completeOk s = s.setStatus statusOk := rfl

/-- Every error's word is a legal `STATUS` (R22). -/
theorem legalStatus_error (e : Err) : legalStatus (statusError e) = true := by cases e <;> decide

theorem legalStatus_ok : legalStatus statusOk = true := by decide

/-- The `STATUS` word of each error (R150). -/
theorem statusError_eq (e : Err) :
    statusError e =
      match e with
      | .forbiddenSubstring => 0x12
      | .payloadTooLarge => 0x22
      | .sentinelNotFound => 0x32
      | .illegalCommand => 0x42
      | .badOperand => 0x52 := by
  cases e <;> rfl

theorem statusState_error (e : Err) : statusState (statusError e) = 2 := by cases e <;> decide

theorem statusState_ok : statusState statusOk = 1 := by decide

/-- A cipher call changes nothing but the count of draws (R11). -/
@[simp] theorem drawEncrypt_fst (P : CipherPort) (k : Key) (p : Text) (s : State) :
    (drawEncrypt P k p s).1 = P.encrypt s.draws k p := rfl

@[simp] theorem drawEncrypt_snd (P : CipherPort) (k : Key) (p : Text) (s : State) :
    (drawEncrypt P k p s).2 = s.setDraws (s.draws + 1) := rfl

/-- The host's next action, taken from the list. -/
theorem nextAction_cons (s : State) (a : HostAction) (rest : List HostAction) (h : s.pending = a :: rest) :
    nextAction s = some (a, s.setPending rest) := by
  simp [nextAction, h]

theorem nextAction_nil (s : State) (h : s.pending = []) : nextAction s = none := by
  simp [nextAction, h]

theorem nextAction_placeCommand (s : State) (w : CmdWord) :
    nextAction (placeCommand s w) = some (.write .cmd (.word w), s) := rfl

end Sys2Proof.Machine
end

