-- ==== Sys2Proof/Laws/Text.lean ====
section
/-! SUPPORT. The containment test on texts (R19). -/

namespace Sys2Proof.Machine

theorem containsText_cons (c : TextChar) (hay needle : Text) :
    containsText (c :: hay) needle = (needle.isPrefixOf (c :: hay) || containsText hay needle) := rfl

/-- A text contains itself (R19). -/
theorem containsText_self (t : Text) : containsText t t = true := by
  cases t with
  | nil => rfl
  | cons c t => simp [containsText]

/-- The empty text contains no sentinel, which is not empty (R121). -/
theorem containsText_nil_sentinel (P : CipherPort) : containsText [] P.sentinel = false := rfl

/-- The needle is in the hay exactly when the hay is something, the needle, something. -/
theorem containsText_iff_append : ∀ (hay needle : Text),
    containsText hay needle = true ↔ ∃ pre post, hay = pre ++ needle ++ post
  | [], needle => by
    constructor
    · intro h
      have : needle = [] := by simpa [containsText] using h
      exact ⟨[], [], by simp [this]⟩
    · rintro ⟨pre, post, h⟩
      have h' := h.symm
      simp only [List.append_eq_nil_iff] at h'
      simp [containsText, h'.1.2]
  | c :: hay, needle => by
    rw [containsText_cons, Bool.or_eq_true, containsText_iff_append hay needle]
    constructor
    · rintro (h | ⟨pre, post, h⟩)
      · obtain ⟨post, h⟩ := List.isPrefixOf_iff_prefix.mp h
        exact ⟨[], post, by simp [h]⟩
      · exact ⟨c :: pre, post, by simp [h]⟩
    · rintro ⟨pre, post, h⟩
      cases pre with
      | nil => exact .inl (List.isPrefixOf_iff_prefix.mpr ⟨post, by simpa using h.symm⟩)
      | cons d pre =>
        simp only [List.cons_append, List.cons.injEq] at h
        exact .inr ⟨pre, post, by simpa using h.2⟩

end Sys2Proof.Machine
end

