-- ==== Sys2Proof/Laws/Codec.lean ====
section
/-! SUPPORT. What the encoder's and the decoder's operations do: embedding, extraction, regrouping, de-framing. -/

namespace Sys2Proof.Machine

/-- The cells after embedding, as a function of the cells before. -/
def embedCells : List Bool → Nat → Memory → Memory
  | [], _, m => m
  | b :: bs, t, m => embedCells bs (t + 1) (m.write t (setLsb (m.read t) b))

/-- Embedding inside the image never faults and changes IMG alone. -/
theorem embed_of_le : ∀ (bits : List Bool) (t : Nat) (s : State), t + bits.length ≤ s.imgSize →
    embed bits t s = .ok (s.setImg (embedCells bits t s.img))
  | [], _, _, _ => rfl
  | b :: bs, t, s, h => by
    have ht : t < s.imgSize := by simp at h; omega
    rw [embed, memRead_of_lt ht]
    simp only [memWrite_of_lt _ ht]
    rw [embed_of_le bs (t + 1) _ (by simp at h ⊢; omega)]
    rfl

theorem embedCells_wf : ∀ (bits : List Bool) (t : Nat) (m : Memory), m.wf = true →
    (embedCells bits t m).wf = true
  | [], _, _, h => h
  | _ :: bs, t, m, h => embedCells_wf bs (t + 1) _ (Memory.wf_write m t _ h)

theorem embedCells_below (n : Nat) : ∀ (bits : List Bool) (t : Nat) (m : Memory), t + bits.length ≤ n →
    m.below n = true → (embedCells bits t m).below n = true
  | [], _, _, _, h => h
  | b :: bs, t, m, hl, h => by
    simp only [List.length_cons] at hl
    exact embedCells_below n bs (t + 1) _ (by omega) (Memory.below_write n m t _ (by omega) h)

/-- A cell outside the embedded bits keeps its byte. -/
theorem embedCells_read_other : ∀ (bits : List Bool) (t : Nat) (m : Memory) (a : Nat),
    a < t ∨ t + bits.length ≤ a → (embedCells bits t m).read a = m.read a
  | [], _, _, _, _ => rfl
  | b :: bs, t, m, a, h => by
    simp only [List.length_cons] at h
    rw [embedCells, embedCells_read_other bs (t + 1) _ a (by omega), Memory.read_write_other _ _ _ _ (by omega)]

/-- A cell under an embedded bit has that bit for its least-significant one (R118, R123). -/
theorem embedCells_read_bit : ∀ (bits : List Bool) (t : Nat) (m : Memory) (i : Nat) (h : i < bits.length),
    m.wf = true → (embedCells bits t m).read (t + i) = setLsb (m.read (t + i)) bits[i]
  | b :: bs, t, m, 0, _, hm => by
    rw [embedCells, embedCells_read_other bs (t + 1) _ (t + 0) (by omega)]
    exact Memory.read_write_same m t _ hm
  | b :: bs, t, m, i + 1, h, hm => by
    have hi : i < bs.length := by simpa using h
    rw [embedCells, show t + (i + 1) = t + 1 + i by omega,
      embedCells_read_bit bs (t + 1) _ i hi (Memory.wf_write m t _ hm),
      Memory.read_write_other _ _ _ _ (by omega)]
    rfl

/-- The flattened payload has eight bits a byte (R114). -/
theorem flatten_length (p : List Byte) : (flatten p).length = 8 * p.length := by
  induction p with
  | nil => rfl
  | cons b p ih =>
    have hc : flatten (b :: p) = (toBits b).toList ++ flatten p := rfl
    rw [hc, List.length_append, ih]
    simp
    omega

theorem flatten_cons (b : Byte) (p : List Byte) : flatten (b :: p) = (toBits b).toList ++ flatten p := rfl

theorem two_pow_dimw : 2 ^ Config.dimw = 65536 := rfl

theorem two_pow_wide : 2 ^ (2 * Config.dimw) = 4294967296 := rfl

theorem bitCapacity_eq (w h : Nat) : bitCapacity w h = w * h * 3 := rfl

theorem imgSize_eq (s : State) : s.imgSize = s.width.toNat * s.height.toNat * 3 := rfl

/-- The capacity gate in bytes (R102). -/
theorem fits_iff (w h len : Nat) : fits w h len = true ↔ len ≤ w * h * 3 / 8 := by
  rw [fits, decide_eq_true_iff]
  rfl

/-- The capacity gate in bits (R103). -/
theorem fits_iff_bits (w h len : Nat) : fits w h len = true ↔ 8 * len ≤ bitCapacity w h := by
  rw [fits, decide_eq_true_iff, capacityBytes]
  omega

/-- A payload that fits leaves room for every bit of it (R113). -/
theorem flatten_fits {s : State} {p : List Byte}
    (h : fits s.width.toNat s.height.toNat p.length = true) : 0 + (flatten p).length ≤ s.imgSize := by
  rw [flatten_length, Nat.zero_add]
  exact (fits_iff_bits _ _ _).mp h

/-- Extraction inside the image never faults and reads the least-significant bits. -/
theorem extractBits_of_le : ∀ (s : State) (n t : Nat), t + n ≤ s.imgSize →
    extractBits s n t = .ok ((List.range' t n).map fun a => (s.img.read a).getLsbD 0)
  | _, 0, _, _ => rfl
  | s, n + 1, t, h => by
    rw [extractBits, memRead_of_lt (by omega)]
    simp only [extractBits_of_le s n (t + 1) (by omega)]
    rfl

/-- The whole image's bits (R131). -/
theorem extractBits_all (s : State) :
    extractBits s s.imgSize 0 = .ok s.bitstream := by
  rw [extractBits_of_le s s.imgSize 0 (by omega), State.bitstream, List.range_eq_range']

/-- Eight bits at the front of a stream are its first byte (R132). -/
theorem regroup_cons8 (b0 b1 b2 b3 b4 b5 b6 b7 : Bool) (bs : List Bool) :
    regroup (b0 :: b1 :: b2 :: b3 :: b4 :: b5 :: b6 :: b7 :: bs) =
      fromBits #v[b0, b1, b2, b3, b4, b5, b6, b7] :: regroup bs := rfl

/-- Fewer than eight bits make no byte (R133). -/
theorem regroup_short (bits : List Bool) (h : bits.length < 8) : regroup bits = [] := by
  match bits with
  | [] | [_] | [_, _] | [_, _, _] | [_, _, _, _] | [_, _, _, _, _] | [_, _, _, _, _, _] | [_, _, _, _, _, _, _] => rfl
  | _ :: _ :: _ :: _ :: _ :: _ :: _ :: _ :: _ => simp at h; omega

/-- One iteration of the de-framing loop (R135 to R138). -/
theorem deframe_succ (P : CipherPort) (k : Key) (bytes : List Byte) (fuel off : Nat) (acc : Text) :
    deframe P k bytes (fuel + 1) off acc =
      if off + blockSize k > bytes.length then none
      else if P.decrypt k (blockAt bytes (blockSize k) off) = P.sentinel then some acc
      else deframe P k bytes fuel (off + blockSize k) (acc ++ P.decrypt k (blockAt bytes (blockSize k) off)) := rfl

/-- The payload of ENCODE: both draws, in order (R112). -/
theorem framePayload_eq (P : CipherPort) (k : Key) (m : Text) (s : State) :
    framePayload P k m s =
      (P.encrypt s.draws k m ++ P.encrypt (s.draws + 1) k P.sentinel, s.setDraws (s.draws + 2)) := rfl

/-- What ENCODE answers, once and for all: one of four next states (R119). -/
theorem encodeWith_eq (P : CipherPort) (s : State) :
    encodeWith P s =
      match s.ekey with
      | none => .next (raiseError (some .encode) .badOperand s)
      | some k =>
        if containsText s.msg P.sentinel then .next (raiseError (some .encode) .forbiddenSubstring s)
        else if fits s.width.toNat s.height.toNat (framePayload P k s.msg s).1.length then
          .next (completeOk ((s.setDraws (s.draws + 2)).setImg
            (embedCells (flatten (framePayload P k s.msg s).1) 0 s.img)))
        else .next (raiseError (some .encode) .payloadTooLarge (s.setDraws (s.draws + 2))) := by
  unfold encodeWith
  cases s.ekey with
  | none => rfl
  | some k =>
    simp only
    split
    · rfl
    · split
      · rename_i hf
        have hl : 0 + (flatten (framePayload P k s.msg s).1).length ≤ (framePayload P k s.msg s).2.imgSize :=
          flatten_fits hf
        rw [embed_of_le _ 0 _ hl]
        rfl
      · rfl

/-- The four ways an ENCODE can end (R119), in the order in which they are tested. -/
theorem encodeWith_cases (P : CipherPort) (s t : State) (h : encodeWith P s = .next t) :
    (s.ekey = none ∧ t = s.setStatus 0x52) ∨
    ∃ k, s.ekey = some k ∧
      ((containsText s.msg P.sentinel = true ∧ t = s.setStatus 0x12) ∨
       (containsText s.msg P.sentinel = false ∧
        fits s.width.toNat s.height.toNat (framePayload P k s.msg s).1.length = true ∧
        t = ((s.setDraws (s.draws + 2)).setImg
          (embedCells (flatten (framePayload P k s.msg s).1) 0 s.img)).setStatus 0x01) ∨
       (containsText s.msg P.sentinel = false ∧
        fits s.width.toNat s.height.toNat (framePayload P k s.msg s).1.length = false ∧
        t = (s.setDraws (s.draws + 2)).setStatus 0x22)) := by
  rw [encodeWith_eq] at h
  split at h
  · cases h; exact .inl ⟨by assumption, rfl⟩
  · refine .inr ⟨_, by assumption, ?_⟩
    split at h
    · cases h; exact .inl ⟨by assumption, rfl⟩
    · have hc : containsText s.msg P.sentinel = false := by simp_all
      split at h
      · cases h; exact .inr (.inl ⟨hc, by assumption, rfl⟩)
      · cases h; exact .inr (.inr ⟨hc, by simp_all, rfl⟩)

/-- What DECODE answers, once and for all: one of three next states (R140). -/
theorem decodeWith_eq (P : CipherPort) (s : State) :
    decodeWith P s =
      match s.dkey with
      | none => .next (raiseError (some .decode) .badOperand s)
      | some k =>
        if blockSize k = 0 then .next (raiseError (some .decode) .badOperand s)
        else
          match deframe P k s.candidateBytes
            (s.candidateBytes.length + 1) 0 [] with
          | none => .next (raiseError (some .decode) .sentinelNotFound s)
          | some acc => .next (completeOk (s.setOut acc)) := by
  unfold decodeWith
  rw [extractBits_all]
  rfl

/-- The three ways a DECODE can end (R140), in the order in which they are tested. -/
theorem decodeWith_cases (P : CipherPort) (s t : State) (h : decodeWith P s = .next t) :
    ((s.dkey = none ∨ ∃ k, s.dkey = some k ∧ blockSize k = 0) ∧ t = (s.setOut []).setStatus 0x52) ∨
    ∃ k, s.dkey = some k ∧ blockSize k ≠ 0 ∧
      ((deframe P k s.candidateBytes
          (s.candidateBytes.length + 1) 0 [] = none ∧
        t = (s.setOut []).setStatus 0x32) ∨
       ∃ acc, deframe P k s.candidateBytes
          (s.candidateBytes.length + 1) 0 [] = some acc ∧
        t = (s.setOut acc).setStatus 0x01) := by
  rw [decodeWith_eq] at h
  split at h
  · cases h; exact .inl ⟨.inl (by assumption), rfl⟩
  · split at h
    · cases h; exact .inl ⟨.inr ⟨_, by assumption, by assumption⟩, rfl⟩
    · refine .inr ⟨_, by assumption, by assumption, ?_⟩
      split at h
      · cases h; exact .inl ⟨by assumption, rfl⟩
      · cases h; exact .inr ⟨_, by assumption, rfl⟩

end Sys2Proof.Machine
end

