-- ==== Sys2Proof/Laws/PerInstr.lean ====
section
/-! SUPPORT. What holds of every command as syntax, one lemma per constructor. -/

/-- A command's word is well formed, and the opcode table's reading of it gives the command back. -/
def Sys2Proof.Laws.WordRoundTrip.Statement (i : Sys2Proof.Instr) : Prop :=
  i.wellFormed = true ∧ Sys2Proof.wellFormedWord (Sys2Proof.encode i) = true ∧
    Sys2Proof.decodeTableWord 8 (Sys2Proof.encode i).toNat = some i

theorem Sys2Proof.Laws.WordRoundTrip.tobits : Sys2Proof.Laws.WordRoundTrip.Statement .tobits := by
  unfold Sys2Proof.Laws.WordRoundTrip.Statement; decide

theorem Sys2Proof.Laws.WordRoundTrip.frombits : Sys2Proof.Laws.WordRoundTrip.Statement .frombits := by
  unfold Sys2Proof.Laws.WordRoundTrip.Statement; decide

theorem Sys2Proof.Laws.WordRoundTrip.capchk : Sys2Proof.Laws.WordRoundTrip.Statement .capchk := by
  unfold Sys2Proof.Laws.WordRoundTrip.Statement; decide

theorem Sys2Proof.Laws.WordRoundTrip.encode : Sys2Proof.Laws.WordRoundTrip.Statement .encode := by
  unfold Sys2Proof.Laws.WordRoundTrip.Statement; decide

theorem Sys2Proof.Laws.WordRoundTrip.decode : Sys2Proof.Laws.WordRoundTrip.Statement .decode := by
  unfold Sys2Proof.Laws.WordRoundTrip.Statement; decide
end

