-- ==== Sys2Proof/Laws/Step.lean ====
section
/-! SUPPORT. What the dispatch, the host's actions and the step do, once each. -/

namespace Sys2Proof.Machine

/-- `exec` is the commands over this instance's cipher port. -/
theorem exec_eq_execOver (i : Instr) (s : State) : exec i s = execOver Config.cipher i s := by cases i <;> rfl

theorem exec_eq : exec = execOver Config.cipher := funext fun i => funext fun s => exec_eq_execOver i s

@[simp] theorem execOver_tobits (P : CipherPort) (s : State) :
    execOver P .tobits s = .next ((s.setBits (toBits s.byte)).setStatus statusOk) := rfl

@[simp] theorem execOver_frombits (P : CipherPort) (s : State) :
    execOver P .frombits s = .next ((s.setByte (fromBits s.bits)).setStatus statusOk) := rfl

/-- CAPCHK's two outcomes in one equation (R105). -/
theorem execOver_capchk (P : CipherPort) (s : State) :
    execOver P .capchk s = .next ((s.setCap (BitVec.ofNat (2 * Config.dimw) s.capacity)).setStatus
      (if fits s.width.toNat s.height.toNat s.plen.toNat then statusOk else statusError .payloadTooLarge)) := by
  simp only [execOver, execCapchk]
  split <;> rfl

theorem execOver_encode (P : CipherPort) (s : State) : execOver P .encode s = encodeWith P s := rfl

theorem execOver_decode (P : CipherPort) (s : State) : execOver P .decode s = decodeWith P s := rfl

/-- A step with nothing pending. -/
theorem runNext_nil (run : Meanings) (s : State) (h : s.pending = []) : runNext run s = .next s := by
  rw [runNext, nextAction_nil s h]

/-- A step with an action pending performs it. -/
theorem runNext_cons (run : Meanings) (s : State) (a : HostAction) (rest : List HostAction)
    (h : s.pending = a :: rest) : runNext run s = performAction run a (s.setPending rest) := by
  rw [runNext, nextAction_cons s a rest h]

/-- A step on a placed command word issues it. -/
theorem step_placeCommand (s : State) (w : CmdWord) : step (placeCommand s w) = issueCommand exec w s := rfl

/-- A command is issued as itself when its word decodes. -/
theorem issueCommand_of_decode (run : Meanings) (w : CmdWord) (i : Instr) (s : State) (h : decode w = .ok i) :
    issueCommand run w s = run i s := by
  rw [issueCommand, h]

/-- A word that does not decode takes the exception `IllegalCommand`. -/
theorem issueCommand_of_error (run : Meanings) (w : CmdWord) (e : DecodeError) (s : State)
    (h : decode w = .error e) : issueCommand run w s = .next (s.setStatus (statusError .illegalCommand)) := by
  rw [issueCommand, h]
  rfl

/-- What a host write can do: issue a command, write one of the six operand registers, or nothing. -/
theorem hostWrite_cases (run : Meanings) (r : Reg) (v : HostValue) (s t : State)
    (h : hostWrite run r v s = .next t) :
    (∃ w, r = .cmd ∧ v = .word w ∧ issueCommand run w s = .next t) ∨ 
      (∃ w, r = .byte ∧ v = .word w ∧ t = s.setByte w) ∨
      (∃ b, r = .bits ∧ v = .bits b ∧ t = s.setBits b) ∨
      (∃ n, r = .plen ∧ v = .num n ∧ t = s.setPlen (BitVec.ofNat (2 * Config.dimw) n)) ∨
      (∃ k, r = .ekey ∧ v = .key k ∧ t = s.setEkey k) ∨
      (∃ k, r = .dkey ∧ v = .key k ∧ t = s.setDkey k) ∨
      (∃ m, r = .msg ∧ v = .text m ∧ t = s.setMsg m) ∨ t = s := by
  cases r with
  | cmd =>
    cases v with
    | word w => exact .inl ⟨w, rfl, rfl, h⟩
    | _ => cases h
  | byte =>
    cases v with
    | word w => cases h; exact .inr (.inl ⟨w, rfl, rfl, rfl⟩)
    | _ => cases h
  | bits =>
    cases v with
    | bits b => cases h; exact .inr (.inr (.inl ⟨b, rfl, rfl, rfl⟩))
    | _ => cases h
  | plen =>
    cases v with
    | num n =>
      simp only [hostWrite] at h
      split at h
      · cases h; exact .inr (.inr (.inr (.inl ⟨_, rfl, rfl, rfl⟩)))
      · cases h
    | _ => cases h
  | ekey =>
    cases v with
    | key k => cases h; exact .inr (.inr (.inr (.inr (.inl ⟨k, rfl, rfl, rfl⟩))))
    | _ => cases h
  | dkey =>
    cases v with
    | key k => cases h; exact .inr (.inr (.inr (.inr (.inr (.inl ⟨k, rfl, rfl, rfl⟩)))))
    | _ => cases h
  | msg =>
    cases v with
    | text m => cases h; exact .inr (.inr (.inr (.inr (.inr (.inr (.inl ⟨m, rfl, rfl, rfl⟩))))))
    | _ => cases h
  | status | cap | width | height | out => cases h; exact .inr (.inr (.inr (.inr (.inr (.inr (.inr rfl))))))

/-- A host read changes the reply alone. -/
theorem hostRead_cases (r : Reg) (s t : State) (h : hostRead r s = .next t) :
    ∃ v, readReg r s = some v ∧ t = s.setReply v := by
  simp only [hostRead] at h
  split at h
  · cases h; exact ⟨_, by assumption, rfl⟩
  · cases h

/-- When an attach is allowed (R33). -/
theorem attachAllowed_iff (w h : Nat) (data : List Byte) : attachAllowed w h data = true ↔
    w < 2 ^ Config.dimw ∧ h < 2 ^ Config.dimw ∧ data.length = w * h * 3 := by
  rw [attachAllowed, Bool.and_eq_true, Bool.and_eq_true, decide_eq_true_iff, decide_eq_true_iff, decide_eq_true_iff,
    bitCapacity_eq, and_assoc]

theorem cellAddress_eq (w r c k : Nat) : cellAddress w r c k = (r * w + c) * 3 + k := rfl

theorem cellPosition_eq (w a : Nat) : cellPosition w a = (a / (3 * w), a / 3 % w, a % 3) := rfl

/-- An attach that is allowed replaces the image and its dimensions alone. -/
theorem hostAttach_cases (w h : Nat) (data : List Byte) (s t : State) (hn : hostAttach w h data s = .next t) :
    attachAllowed w h data = true ∧
      t = s.setImage (BitVec.ofNat Config.dimw w) (BitVec.ofNat Config.dimw h) (Memory.ofBytes data 0) := by
  simp only [hostAttach] at hn
  split at hn
  · cases hn; exact ⟨by assumption, rfl⟩
  · cases hn

/-- A host read of a cell changes the reply alone. -/
theorem hostImgRead_cases (a : Nat) (s t : State) (h : hostImgRead a s = .next t) :
    a < s.imgSize ∧ t = s.setReply (.word (s.img.read a)) := by
  by_cases ha : a < s.imgSize
  · simp only [hostImgRead, memRead_of_lt ha] at h
    cases h; exact ⟨ha, rfl⟩
  · simp only [hostImgRead, memRead_of_le (Nat.not_lt.mp ha)] at h
    cases h

/-- A host write of a cell changes that cell alone. -/
theorem hostImgWrite_cases (a : Nat) (v : Byte) (s t : State) (h : hostImgWrite a v s = .next t) :
    a < s.imgSize ∧ t = s.setImg (s.img.write a v) := by
  by_cases ha : a < s.imgSize
  · simp only [hostImgWrite, memWrite_of_lt v ha] at h
    cases h; exact ⟨ha, rfl⟩
  · simp only [hostImgWrite, memWrite_of_le v (Nat.not_lt.mp ha)] at h
    cases h

end Sys2Proof.Machine
end

