-- ==== Sys2Proof/Machine/ScriptText.lean ====
section
/-! DEFINITION. The written form of host scripts (R80, R81, R83). What the notation leaves open is log entry 17. -/

namespace Sys2Proof.Machine

/-- The pieces of a script line. -/
inductive Token where
  | word (cs : List Char)
  | text (t : Text)
  | mark (c : Char)
  deriving DecidableEq, Repr

/-- A character of a text literal: its ASCII code (R81). For the codes 128 to 255, which ASCII does not have, the character's
code point is taken, and a character above 255 cannot stand in a literal: both are the model's, DESIGN CHOICE, log
entry 17. -/
def charCode (c : Char) : Option TextChar :=
  if c.toNat < 256 then some (BitVec.ofNat 8 c.toNat) else none

/-- The word read so far, if there is one, before the other tokens. -/
def flushWord (cur : List Char) (ts : List Token) : List Token :=
  match cur with
  | [] => ts
  | _ => .word cur.reverse :: ts

/-- A line's tokens. The second argument is the word or text read so far, last character first; the third says whether a
text literal is open. Text after `;` is ignored (R80). -/
def tokenize : List Char → List Char → Bool → Option (List Token)
  | [], cur, false => some (flushWord cur [])
  | [], _, true => none
  | c :: cs, cur, true =>
    if c = '"' then
      match cur.reverse.mapM charCode, tokenize cs [] false with
      | some t, some ts => some (.text t :: ts)
      | _, _ => none
    else tokenize cs (c :: cur) true
  | c :: cs, cur, false =>
    if c = ';' then some (flushWord cur [])
    else if c = '"' then (tokenize cs [] true).map (flushWord cur)
    else if c.isWhitespace then (tokenize cs [] false).map (flushWord cur)
    else if c = '[' ∨ c = ']' ∨ c = '(' ∨ c = ')' ∨ c = ',' then
      (tokenize cs [] false).map fun ts => flushWord cur (.mark c :: ts)
    else tokenize cs (c :: cur) false

/-- The value of a hexadecimal digit. -/
def hexDigit (c : Char) : Option Nat :=
  if '0' ≤ c ∧ c ≤ '9' then some (c.toNat - 48)
  else if 'A' ≤ c ∧ c ≤ 'F' then some (c.toNat - 55)
  else if 'a' ≤ c ∧ c ≤ 'f' then some (c.toNat - 87)
  else none

/-- Digits in a base of at most 16. -/
def parseDigits (base : Nat) : List Char → Nat → Option Nat
  | [], n => some n
  | c :: cs, n =>
    match hexDigit c with
    | some d => if d < base then parseDigits base cs (n * base + d) else none
    | none => none

/-- Hexadecimal with `0x`, or decimal (R81). -/
def parseNumber (cs : List Char) : Option Nat :=
  match cs with
  | '0' :: 'x' :: d :: ds => parseDigits 16 (d :: ds) 0
  | d :: ds => parseDigits 10 (d :: ds) 0
  | [] => none

/-- A number that is a byte or an 8-bit word. -/
def parseByte (cs : List Char) : Option Byte :=
  match parseNumber cs with
  | some n => if n < 256 then some (BitVec.ofNat 8 n) else none
  | none => none

/-- The hexadecimal pairs of a byte list up to its closing bracket (R81). -/
def parsePairs : List Token → Option (List Byte)
  | [.mark ']'] => some []
  | .word [a, b] :: ts =>
    match hexDigit a, hexDigit b, parsePairs ts with
    | some x, some y, some vs => some (BitVec.ofNat 8 (16 * x + y) :: vs)
    | _, _, _ => none
  | _ => none

/-- A byte list in brackets (R81). -/
def parseBytes (ts : List Token) : Option (List Byte) :=
  match ts with
  | .mark '[' :: rest => parsePairs rest
  | _ => none

/-- One bit of a bit sequence (R81). -/
def parseBit (c : Char) : Option Bool :=
  if c = '0' then some false else if c = '1' then some true else none

/-- Eight digits, the first element leftmost (R81). -/
def parseBits (cs : List Char) : Option Bits8 :=
  match cs.mapM parseBit with
  | some [b0, b1, b2, b3, b4, b5, b6, b7] => some #v[b0, b1, b2, b3, b4, b5, b6, b7]
  | _ => none

/-- A key as the fixture cipher of 95_test_vectors.md writes it, `XK(kappa, bits)` (R81): the handle and the declared
size. -/
def parseKey (ts : List Token) : Option Key :=
  match ts with
  | [.word ['X', 'K'], .mark '(', .word kappa, .mark ',', .word size, .mark ')'] =>
    match parseByte kappa, parseNumber size with
    | some h, some n => some { handle := h.toNat, sizeBits := n }
    | _, _ => none
  | _ => none

/-- A register's name. -/
def parseReg (cs : List Char) : Option Reg :=
  match String.ofList cs with
  | "STATUS" => some .status
  | "BYTE" => some .byte
  | "BITS" => some .bits
  | "PLEN" => some .plen
  | "CAP" => some .cap
  | "WIDTH" => some .width
  | "HEIGHT" => some .height
  | "EKEY" => some .ekey
  | "DKEY" => some .dkey
  | "MSG" => some .msg
  | "OUT" => some .out
  | _ => none

/-- An error's name (R150). -/
def parseErr (cs : List Char) : Option Err :=
  match String.ofList cs with
  | "ForbiddenSubstring" => some .forbiddenSubstring
  | "PayloadTooLarge" => some .payloadTooLarge
  | "SentinelNotFound" => some .sentinelNotFound
  | "IllegalCommand" => some .illegalCommand
  | "BadOperand" => some .badOperand
  | _ => none

/-- A `STATUS` value, symbolic or as a number (R81). -/
def parseStatus (ts : List Token) : Option (BitVec 8) :=
  match ts with
  | [.word ['I', 'D', 'L', 'E']] => some statusIdle
  | [.word ['O', 'K']] => some statusOk
  | [.word ['E', 'R', 'R', 'O', 'R'], .mark '(', .word e, .mark ')'] => (parseErr e).map statusError
  | [.word cs] => parseByte cs
  | _ => none

/-- A register's value in its written form (R81). -/
def parseValue (r : Reg) (ts : List Token) : Option HostValue :=
  match r, ts with
  | .cmd, [.word cs] => (parseByte cs).map .word
  | .status, ts => (parseStatus ts).map .word
  | .byte, [.word cs] => (parseByte cs).map .word
  | .bits, [.word cs] => (parseBits cs).map .bits
  | .plen, [.word cs] => (parseNumber cs).map .num
  | .cap, [.word cs] => (parseNumber cs).map .num
  | .width, [.word cs] => (parseNumber cs).map .num
  | .height, [.word cs] => (parseNumber cs).map .num
  | .ekey, ts => (parseKey ts).map .key
  | .dkey, ts => (parseKey ts).map .key
  | .msg, [.text t] => some (.text t)
  | .out, [.text t] => some (.text t)
  | _, _ => none

/-- The registers a `SET` may name (R80). -/
def settable (r : Reg) : Bool :=
  match r with
  | .byte => true
  | .bits => true
  | .plen => true
  | .ekey => true
  | .dkey => true
  | .msg => true
  | _ => false

/-- A line with the arguments after its first word (R80, R83). -/
def parseWordLine (head : List Char) (args : List Token) : Option (List ScriptLine) :=
  match String.ofList head, args with
  | "RESET", [] => some [.reset]
  | "ATTACH", .word w :: .word h :: data =>
    match parseNumber w, parseNumber h, parseBytes data with
    | some w, some h, some data => some [.attach w h data]
    | _, _, _ => none
  | "POKE", [.word a, .word v] =>
    match parseNumber a, parseByte v with
    | some a, some v => some [.poke a v]
    | _, _ => none
  | "SET", .word r :: value =>
    match parseReg r with
    | some r => if settable r then (parseValue r value).map fun v => [.set r v] else none
    | none => none
  | "TOBITS", [] => some [.command .tobits]
  | "FROMBITS", [] => some [.command .frombits]
  | "CAPCHK", [] => some [.command .capchk]
  | "ENCODE", [] => some [.command .encode]
  | "DECODE", [] => some [.command .decode]
  | "CMD", [.word w] => (parseByte w).map fun w => [.cmd w]
  | "EXPECT", .word ['I', 'M', 'G'] :: data => (parseBytes data).map fun d => [.expectImg d]
  | "EXPECT", .word r :: value =>
    match parseReg r with
    | some r => (parseValue r value).map fun v => [.expect r v]
    | none => none
  | "CALL_TOBITS", [.word v] => (parseByte v).map callTobits
  | "CALL_FROMBITS", [.word b] => (parseBits b).map callFrombits
  | "CALL_CAPCHK", [.word n] => (parseNumber n).map callCapchk
  | "CALL_ENCODE", .text t :: key => (parseKey key).map (callEncode t)
  | "CALL_DECODE", key => (parseKey key).map callDecode
  | _, _ => none

/-- The script lines a written line stands for: none for a blank line, several for a pseudo-command (R80, R83);
`none` for a line the notation does not have. -/
def parseLine (cs : List Char) : Option (List ScriptLine) :=
  match tokenize cs [] false with
  | some [] => some []
  | some (.word head :: args) => parseWordLine head args
  | _ => none

/-- The script of a list of written lines. -/
def parseScript (lines : List (List Char)) : Option (List ScriptLine) :=
  (lines.mapM parseLine).map List.flatten

end Sys2Proof.Machine
end

