-- ==== Sys2Proof/Tests/Slice0.lean ====
section
/-! SUPPORT. The author's own tests. Expected values are the vectors of spec/95_test_vectors.md, cited by name, and for
each statement with hypotheses a witness that meets them. The fixture cipher and sentinel are that file's section 2:
they instantiate the open parameters here and nowhere in the model. -/

namespace Sys2Proof.Tests

open Sys2Proof.Machine

/-! ### Helpers -/

/-- Chunks of `bs` characters, the last one padded with the character 00. -/
def fixturePad (bs : Nat) : Nat → Text → Text
  | 0, _ => []
  | _, [] => []
  | fuel + 1, p => p.take bs ++ List.replicate (bs - (p.take bs).length) 0x00 ++ fixturePad bs fuel (p.drop bs)

/-- The fixture of 95_test_vectors.md section 2: a key `XK(kappa, bits)` has `kappa` for its handle. -/
def fixture : CipherPort where
  sentinelHead := 0x24
  sentinelTail := [0x24]
  encrypt := fun _ k p => (fixturePad (blockSize k) (p.length + 1) p).map (· ^^^ BitVec.ofNat 8 k.handle)
  decrypt := fun k c => (c.map (· ^^^ BitVec.ofNat 8 k.handle)).filter (· ≠ 0x00)

def xk (kappa bits : Nat) : Key := { handle := kappa, sizeBits := bits }

/-- The reset state with an image attached. -/
def withImage (w h : Dim) (data : List Byte) : State := State.reset.setImage w h (Memory.ofBytes data 0)

/-- The next state of an outcome. -/
def nextOf (o : Host.Outcome State Fault Refusal) : Option State :=
  match o with
  | .next t => some t
  | .fault _ => none
  | .refused _ => none

/-- A field of the next state. -/
def field {α : Type} (o : Host.Outcome State Fault Refusal) (f : State → α) : Option α := (nextOf o).map f

/-- The first `n` cells of the image. -/
def cells (n : Nat) (s : State) : List Byte := (List.range n).map s.img.read

/-! ### Words: well-formedness and decoding (R70, R73, R74; vector I1) -/

theorem test_wellformed_zero_field : wellFormedZero 0b00001100 = false := by decide
theorem test_wellformed_op_000 : wellFormedOp 0b00000000 = false := by decide
theorem test_wellformed_op_110 : wellFormedOp 0b00000110 = false := by decide
theorem test_wellformed_op_111 : wellFormedOp 0b00000111 = false := by decide

theorem test_decode_tobits : decode 0b00000001 = .ok .tobits := by decide
theorem test_decode_frombits : decode 0b00000010 = .ok .frombits := by decide
theorem test_decode_capchk : decode 0b00000011 = .ok .capchk := by decide
theorem test_decode_encode : decode 0b00000100 = .ok .encode := by decide
theorem test_decode_decode : decode 0b00000101 = .ok .decode := by decide
theorem test_decode_illegal : ([0x00, 0x06, 0x07, 0x08, 0x0C, 0x81, 0x84, 0xFF] : List CmdWord).all
    (fun w => match decode w with | .ok _ => false | .error _ => true) = true := by decide

/-! ### Commands -/

/-- B1: `BYTE = 80` gives `10000000`, the set bit first. -/
theorem test_tobits_msb_first : field (exec .tobits { State.reset with byte := 0x80 }) (fun t => t.bits) =
    some #v[true, false, false, false, false, false, false, false] := by decide

/-- B1: `BYTE = A5` gives `10100101`, and `STATUS = 0x01`. -/
theorem test_tobits_a5 : field (exec .tobits { State.reset with byte := 0xA5 }) (fun t => (t.bits, t.status)) =
    some (#v[true, false, true, false, false, true, false, true], 0x01) := by decide

/-- B2: `01000000` gives 40, not 02. -/
theorem test_frombits_msb_first : field (exec .frombits
    { State.reset with bits := #v[false, true, false, false, false, false, false, false] }) (fun t => t.byte) =
    some 0x40 := by decide

/-- K17: a 4 by 4 image and `PLEN = 8`: `CAP = 6`, `STATUS = 0x22`. -/
theorem test_capchk_too_large : field (exec .capchk { State.reset with width := 4, height := 4, plen := 8 })
    (fun t => (t.cap, t.status)) = some (6, 0x22) := by decide

/-- K15: the largest image: `CAP = 1610563584` with no wrap, and `PLEN = CAP` fits. -/
theorem test_capchk_largest : field (exec .capchk
    { State.reset with width := 65535, height := 65535, plen := 1610563584 })
    (fun t => (t.cap, t.status)) = some (1610563584, 0x01) := by decide

/-- E7: `"Hi"` under `XK(0x0F, 16)` in a 3 by 4 image; cells 32 to 35 keep their bytes. -/
theorem test_encode_e7 : field (encodeWith fixture
    { withImage 3 4 ((List.range 36).map fun t => BitVec.ofNat 8 (0x80 + t)) with
      msg := [0x48, 0x69], ekey := some (xk 0x0F 16) }) (fun t => (cells 36 t, t.status)) =
    some ([0x80, 0x81, 0x82, 0x82, 0x84, 0x85, 0x87, 0x87, 0x88, 0x89, 0x8B, 0x8A, 0x8C, 0x8D, 0x8F, 0x8E, 0x90, 0x90,
      0x93, 0x92, 0x95, 0x94, 0x97, 0x97, 0x98, 0x98, 0x9B, 0x9A, 0x9D, 0x9C, 0x9F, 0x9F, 0xA0, 0xA1, 0xA2, 0xA3],
      0x01) := by decide +kernel

/-- E9: a forbidden message in an image of capacity 0 raises `ForbiddenSubstring`, not `PayloadTooLarge`. -/
theorem test_encode_e9 : field (encodeWith fixture
    { withImage 1 1 [0xAA, 0xBB, 0xCC] with msg := [0x61, 0x24, 0x24, 0x62], ekey := some (xk 0x5A 12) })
    (fun t => (cells 3 t, t.status)) = some ([0xAA, 0xBB, 0xCC], 0x12) := by decide

/-- X7: a chance sentinel in an image that was never encoded: `OUT` empty, `STATUS = 0x01`. -/
theorem test_decode_x7 : field (decodeWith fixture
    { withImage 2 3 [0x40, 0x41, 0x41, 0x41, 0x41, 0x41, 0x41, 0x40, 0x40, 0x41, 0x41, 0x41, 0x41, 0x41, 0x41, 0x40,
        0x41, 0x40] with dkey := some (xk 0x5A 16), out := [0x61] }) (fun t => (t.out, t.status)) =
    some ([], 0x01) := by decide +kernel

/-- X6: one whole block of three bytes is decrypted, the rest is too short: `SentinelNotFound`, `OUT` empty. -/
theorem test_decode_x6 : field (decodeWith fixture
    { withImage 3 3 (List.replicate 27 0x00) with dkey := some (xk 0x5A 9), out := [0x61] })
    (fun t => (t.out, t.status)) = some ([], 0x32) := by decide +kernel

/-! ### Scripts (R80, R81, R83) -/

theorem test_parse_call_encode : parseLine "CALL_ENCODE \"abc\" XK(0x5A, 12)     ; SET MSG ; SET EKEY".toList =
    some (callEncode [0x61, 0x62, 0x63] (xk 0x5A 12)) := by decide +kernel

theorem test_parse_expect_error : parseLine "EXPECT STATUS ERROR(BadOperand)".toList =
    some [.expect .status (.word 0x52)] := by decide +kernel

theorem test_parse_attach : parseLine "ATTACH 1 1 [AA BB cc]".toList =
    some [.attach 1 1 [0xAA, 0xBB, 0xCC]] := by decide +kernel

theorem test_parse_unknown : parseLine "JUMP 3".toList = none := by decide +kernel

/-- The first lines of program P4. -/
theorem test_script_p4 : ((parseScript ["RESET".toList, "TOBITS".toList, "EXPECT BITS 00000000".toList,
      "CALL_TOBITS 0xA5".toList, "EXPECT BITS 10100101".toList, "CMD 0x00".toList,
      "EXPECT STATUS ERROR(IllegalCommand)".toList, "CALL_CAPCHK 1".toList, "EXPECT STATUS 0x22".toList]).map
    fun ls => (runScript exec ls State.reset).passed) = some true := by decide +kernel

/-! ### Witnesses: for each statement with hypotheses, values that meet them -/

theorem witness_IllegalWordWritesStatusOnly :
    (0x00 : CmdWord).toNat = 0 ∧ 6 ≤ (0x06 : CmdWord).toNat ∧ 6 ≤ (0xFF : CmdWord).toNat := by decide

theorem witness_DecodeAndEncodeAgree : Instr.encode.wellFormed = true ∧ decode 0x04 = .ok .encode := by decide

theorem witness_StepRunsDecodedCommand :
    (placeCommand State.reset 0x03).pending = [.write .cmd (.word 0x03)] ∧ decode 0x03 = .ok .capchk ∧
      Instr.capchk.wellFormed = true := by decide

theorem witness_StepPerformsHostAction :
    ({ State.reset with pending := [.read .status] } : State).pending = .read .status :: [] ∧
      State.reset.pending = [] := ⟨rfl, rfl⟩

theorem witness_FrombitsResult :
    exec .tobits { State.reset with byte := 0xA5 } =
      .next { State.reset with byte := 0xA5, bits := toBits 0xA5, status := 0x01 } ∧
    exec .frombits { State.reset with byte := 0xA5, bits := toBits 0xA5, status := 0x01 } =
      .next { State.reset with byte := fromBits (toBits 0xA5), bits := toBits 0xA5, status := 0x01 } ∧
    exec .tobits { State.reset with byte := fromBits (toBits 0xA5), bits := toBits 0xA5, status := 0x01 } =
      .next { State.reset with
        byte := fromBits (toBits 0xA5), bits := toBits (fromBits (toBits 0xA5)), status := 0x01 } := ⟨rfl, rfl, rfl⟩

theorem witness_UnpackedBitPositions : (0 : Nat) < 8 ∧ (7 : Nat) < 8 := by decide

theorem witness_CapacityFitsCapRegister : 65535 < 2 ^ Config.dimw ∧ 0 < 2 ^ Config.dimw := by decide

theorem witness_FlattenedBitPositions : 1 < ([0x3B, 0x38] : List Byte).length ∧ (7 : Nat) < 8 := by decide

theorem witness_LsbReplacement : 1 ≤ 1 ∧ 1 < 8 ∧ 1 ≤ 7 ∧ 7 < 8 := by decide

theorem witness_EncodeWithoutKeyRaisesBadOperand : State.reset.ekey = none := rfl

/-- A state with both keys written and an empty message. -/
def keyed : State := { State.reset with ekey := some (xk 0 8), dkey := some (xk 0 8) }

theorem witness_ForbiddenMessageRaisesForbiddenSubstring :
    ({ keyed with msg := Config.cipher.sentinel } : State).ekey = some (xk 0 8) ∧
      containsText ({ keyed with msg := Config.cipher.sentinel } : State).msg Config.cipher.sentinel = true ∧
      exec .encode { keyed with msg := Config.cipher.sentinel } =
        .next { keyed with msg := Config.cipher.sentinel, status := 0x12 } := by
  refine ⟨rfl, containsText_self _, ?_⟩
  rw [exec_eq_execOver, execOver_encode, encodeWith_eq]
  simp only [keyed, containsText_self, if_true]
  rfl

theorem witness_EncodeHidesThePayload :
    keyed.ekey = some (xk 0 8) ∧ containsText keyed.msg Config.cipher.sentinel = false ∧ keyed.img.wf = true :=
  ⟨rfl, containsText_nil_sentinel _, rfl⟩

/-- X7's image before an ENCODE of the empty message, and the cells after it: the payload `7E 7E` in cells 0 to 15. -/
def before : State := { withImage 2 3 (List.replicate 18 0x40) with ekey := some (xk 0x5A 16) }

def after : State :=
  { before with
    status := 0x01
    draws := 2
    img := Memory.ofBytes [0x40, 0x41, 0x41, 0x41, 0x41, 0x41, 0x41, 0x40, 0x40, 0x41, 0x41, 0x41, 0x41, 0x41, 0x41,
      0x40, 0x40, 0x40] 0 }

/-- The same instance of the cipher answers the empty text with no block (E5). -/
theorem before_encodes : nextOf (execOver fixture .encode before) = some after := by decide +kernel

theorem next_of_nextOf {o : Host.Outcome State Fault Refusal} {t : State} (h : nextOf o = some t) : o = .next t := by
  cases o with
  | next u => simp only [nextOf, Option.some.injEq] at h; rw [h]
  | fault f => cases h
  | refused r => cases h

theorem witness_EncodeKeepsCellsBeyondPayload :
    before.ekey = some (xk 0x5A 16) ∧ execOver fixture .encode before = .next after ∧ after.status = 0x01 ∧
      8 * (framePayload fixture (xk 0x5A 16) before.msg before).1.length ≤ 16 :=
  ⟨rfl, next_of_nextOf before_encodes, rfl, by decide +kernel⟩

theorem witness_EncodeTouchesLeastSignificantBitsOnly :
    before.img.wf = true ∧ before.ekey = some (xk 0x5A 16) ∧ execOver fixture .encode before = .next after ∧
      after.status = 0x01 ∧ 15 < (flatten (framePayload fixture (xk 0x5A 16) before.msg before).1).length :=
  ⟨by decide +kernel, rfl, next_of_nextOf before_encodes, rfl, by decide +kernel⟩

theorem witness_FailedEncodeLeavesTheImage :
    exec .encode State.reset = .next { State.reset with status := 0x52 } ∧
      statusState ({ State.reset with status := 0x52 } : State).status = 2 := ⟨rfl, by decide⟩

theorem witness_EncodedPayloadReadsBack :
    before.img.wf = true ∧ before.ekey = some (xk 0x5A 16) ∧ execOver fixture .encode before = .next after ∧
      after.status = 0x01 ∧ after.imgSize = after.imgSize ∧
      ∀ a, a < 8 * (framePayload fixture (xk 0x5A 16) before.msg before).1.length →
        after.img.read a = after.img.read a :=
  ⟨by decide +kernel, rfl, next_of_nextOf before_encodes, rfl, rfl, fun _ _ => rfl⟩

theorem witness_EncodeReadsItsOperandsOnly :
    before.msg = ({ before with dkey := some (xk 1 1), out := [0x61] } : State).msg ∧
      before.ekey = ({ before with dkey := some (xk 1 1), out := [0x61] } : State).ekey ∧
      before.width = ({ before with dkey := some (xk 1 1), out := [0x61] } : State).width ∧
      before.height = ({ before with dkey := some (xk 1 1), out := [0x61] } : State).height ∧
      before.img = ({ before with dkey := some (xk 1 1), out := [0x61] } : State).img ∧
      before.draws = ({ before with dkey := some (xk 1 1), out := [0x61] } : State).draws :=
  ⟨rfl, rfl, rfl, rfl, rfl, rfl⟩

theorem witness_ExtractionReadsEveryCell : 17 < before.bitstream.length := by decide +kernel

theorem witness_RegroupedBytes : 1 < (regroup before.bitstream).length ∧ (7 : Nat) < 8 := by decide +kernel

theorem witness_DecodeWithoutUsableKeyRaisesBadOperand :
    State.reset.dkey = none ∧
      ({ State.reset with dkey := some (xk 7 0) } : State).dkey = some (xk 7 0) ∧ (xk 7 0).sizeBits = 0 :=
  ⟨rfl, rfl, rfl⟩

theorem witness_DecodeRecoversTheMessage : keyed.dkey = some (xk 0 8) ∧ (xk 0 8).sizeBits ≠ 0 := ⟨rfl, by decide⟩

theorem witness_NoSentinelBlockRaisesSentinelNotFound :
    keyed.dkey = some (xk 0 8) ∧ (xk 0 8).sizeBits ≠ 0 ∧
      ∀ q, (q + 1) * blockSize (xk 0 8) ≤ keyed.candidateBytes.length →
        fixture.decrypt (xk 0 8) (blockAt keyed.candidateBytes (blockSize (xk 0 8)) (q * blockSize (xk 0 8))) ≠
          fixture.sentinel := by
  refine ⟨rfl, by decide, fun q h => ?_⟩
  have hl : keyed.candidateBytes.length = 0 := rfl
  have hb : blockSize (xk 0 8) = 1 := rfl
  rw [hl, hb] at h
  omega

theorem witness_DeframingLoopIsBounded :
    1 ≤ blockSize (xk 0x5A 12) ∧ ([0x3B, 0x38, 0x39] : List Byte).length / blockSize (xk 0x5A 12) < 2 := by decide

theorem witness_SmallImageRaisesSentinelNotFound :
    keyed.dkey = some (xk 0 8) ∧ (xk 0 8).sizeBits ≠ 0 ∧ keyed.imgSize / 8 < blockSize (xk 0 8) :=
  ⟨rfl, by decide, by decide⟩

/-- Two images that differ in their upper bits only. -/
theorem witness_DecodeReadsLeastSignificantBitsOnly :
    (withImage 1 1 [0x40, 0x41, 0x40]).dkey = (withImage 1 1 [0x00, 0xFF, 0x02]).dkey ∧
      (withImage 1 1 [0x40, 0x41, 0x40]).imgSize = (withImage 1 1 [0x00, 0xFF, 0x02]).imgSize ∧
      ∀ a, a < (withImage 1 1 [0x40, 0x41, 0x40]).imgSize →
        ((withImage 1 1 [0x40, 0x41, 0x40]).img.read a).getLsbD 0 =
          ((withImage 1 1 [0x00, 0xFF, 0x02]).img.read a).getLsbD 0 := by decide

theorem witness_DecodeIsRepeatable :
    exec .decode State.reset = .next { State.reset with status := 0x52 } ∧
      (7 : Dim).toNat * (0 : Dim).toNat = State.reset.width.toNat * State.reset.height.toNat := ⟨rfl, by decide⟩

/-- E7's state before the command. -/
def roundTrip : State :=
  { withImage 3 4 ((List.range 36).map fun t => BitVec.ofNat 8 (0x80 + t)) with
    msg := [0x48, 0x69], ekey := some (xk 0x0F 16) }

/-- The fixture is faithful for E7's message (95_test_vectors.md section 2). -/
theorem fixture_faithful : CipherFaithful fixture (xk 0x0F 16) (xk 0x0F 16) [0x48, 0x69] :=
  ⟨by decide, fun _ => ⟨1, rfl, rfl⟩, fun _ => ⟨rfl, rfl⟩⟩

theorem witness_RoundTripRecoversTheMessage :
    roundTrip.img.wf = true ∧ roundTrip.ekey = some (xk 0x0F 16) ∧
      containsText roundTrip.msg fixture.sentinel = false ∧
      CipherFaithful fixture (xk 0x0F 16) (xk 0x0F 16) roundTrip.msg ∧
      (fixture.encrypt roundTrip.draws (xk 0x0F 16) roundTrip.msg).length + blockSize (xk 0x0F 16) ≤
        roundTrip.width.toNat * roundTrip.height.toNat * 3 / 8 :=
  ⟨by decide +kernel, rfl, by decide, fixture_faithful, by decide⟩

theorem witness_EveryCommandCompletes : Instr.decode.wellFormed = true := rfl

/-- One run of each command: CommandFrame, OutcomesOfEachCommand, BadOperandCauses. -/
theorem witness_commands_run :
    exec .tobits State.reset = .next { State.reset with status := 0x01 } ∧
      exec .frombits State.reset = .next { State.reset with status := 0x01 } ∧
      exec .capchk State.reset = .next { State.reset with status := 0x01 } ∧
      exec .encode State.reset = .next { State.reset with status := 0x52 } ∧
      exec .decode State.reset = .next { State.reset with status := 0x52 } := ⟨rfl, rfl, rfl, rfl, rfl⟩

/-- A payload of two bytes in an image of capacity 0 (E9's image), and a CAPCHK that does not fit. -/
theorem witness_PayloadTooLargeCauses :
    execOver fixture .encode { withImage 1 1 [0xAA, 0xBB, 0xCC] with ekey := some (xk 0x5A 12) } =
        .next { withImage 1 1 [0xAA, 0xBB, 0xCC] with ekey := some (xk 0x5A 12), status := 0x22, draws := 2 } ∧
      exec .capchk { State.reset with plen := 1 } = .next { State.reset with plen := 1, status := 0x22 } := ⟨rfl, rfl⟩

/-- No image attached (R145). -/
theorem witness_SentinelNotFoundCause : exec .decode keyed = .next { keyed with status := 0x32 } := rfl

theorem witness_HostResetRestoresResetValues :
    ({ keyed with pending := [.reset] } : State).pending = .reset :: [] := rfl

theorem witness_HostWritesOperandRegisters : 4294967295 < 2 ^ (2 * Config.dimw) := by decide

theorem witness_HostWriteOfReadOnlyRegisterHasNoEffect :
    ([.status, .cap, .width, .height, .out] : List Reg).all fun r =>
      decide (r = .status ∨ r = .cap ∨ r = .width ∨ r = .height ∨ r = .out) := by decide

theorem witness_HostCannotReadKeysOrCommandPort :
    ([.cmd, .ekey, .dkey] : List Reg).all fun r => decide (r = .cmd ∨ r = .ekey ∨ r = .dkey) := by decide

theorem witness_AttachSuppliesEveryCell :
    65535 < 2 ^ Config.dimw ∧ 0 < 2 ^ Config.dimw ∧ ([] : List Byte).length = 65535 * 0 * 3 ∧
      1 < 2 ^ Config.dimw ∧ ([0xAA, 0xBB, 0xCC] : List Byte).length = 1 * 1 * 3 ∧
      2 ^ Config.dimw ≤ 65536 ∧ ([0xAA] : List Byte).length ≠ 1 * 1 * 3 := by decide

theorem witness_HostAccessesExistingCells :
    2 < (withImage 1 1 [0xAA, 0xBB, 0xCC]).imgSize ∧ (withImage 1 1 [0xAA, 0xBB, 0xCC]).img.wf = true ∧
      (withImage 1 1 [0xAA, 0xBB, 0xCC]).imgSize ≤ 3 := by decide

theorem witness_CellAddressAndPositionAgree : 3 < 4 ∧ 3 < 4 ∧ 2 < 3 ∧ cellAddress 4 3 3 2 = 47 ∧ 1 ≤ 4 := by decide

theorem witness_StepKeepsTheInvariant :
    before.Inv ∧ step (placeCommand before 0x01) = .next { before with status := 0x01 } ∧
      (placeCommand before 0x01).Inv := by
  refine ⟨by decide +kernel, rfl, by decide +kernel⟩

/-- A step that changes each of the read-only registers. -/
theorem witness_WritersOfTheReadOnlyRegisters :
    step (placeCommand State.reset 0x01) = .next { State.reset with status := 0x01 } ∧
      field (step (placeCommand { State.reset with width := 4, height := 4 } 0x03)) (fun t => t.cap) = some 6 ∧
      field (step (placeCommand { State.reset with out := [0x61] } 0x05)) (fun t => t.out) = some [] ∧
      field (step { State.reset with pending := [.attach 1 0 []] }) (fun t => t.width) = some 1 := by
  refine ⟨rfl, ?_, ?_, ?_⟩ <;> decide

/-- A step that changes each of the operand registers. -/
theorem witness_WritersOfTheOperandRegisters :
    field (step { State.reset with pending := [.write .ekey (.key (xk 1 8))] }) (fun t => t.ekey) =
        some (some (xk 1 8)) ∧
      field (step { State.reset with pending := [.write .dkey (.key (xk 1 8))] }) (fun t => t.dkey) =
        some (some (xk 1 8)) ∧
      field (step { State.reset with pending := [.write .msg (.text [0x61])] }) (fun t => t.msg) = some [0x61] ∧
      field (step { State.reset with pending := [.write .plen (.num 9)] }) (fun t => t.plen) = some 9 := by decide

end Sys2Proof.Tests
end

section
/-! PROOFS. The statements about the scope rules (spec/00_scope.md): text containment (R19) and the block size (R8). -/

namespace Sys2Proof.Machine

/-- The text before the needle in R19's occurrence fixes the position `i`, and `i` cuts the hay back into the three
parts. -/
theorem exists_append_iff_exists_position (hay needle : Text) :
    (∃ pre post, hay = pre ++ needle ++ post) ↔
      ∃ i, i + needle.length ≤ hay.length ∧ (hay.drop i).take needle.length = needle := by
  constructor
  · rintro ⟨pre, post, rfl⟩
    exact ⟨pre.length, by simp, by simp⟩
  · rintro ⟨i, -, h⟩
    refine ⟨hay.take i, (hay.drop i).drop needle.length, ?_⟩
    have hcut : needle ++ (hay.drop i).drop needle.length = hay.drop i := by
      simpa only [h] using List.take_append_drop needle.length (hay.drop i)
    rw [List.append_assoc, hcut, List.take_append_drop]

/-- `ceilDiv a b` is the least multiplier that takes `b` to `a` or above. -/
theorem ceilDiv_bounds (a : Nat) {b : Nat} (hb : 0 < b) : a ≤ b * ceilDiv a b ∧ b * ceilDiv a b < a + b := by
  have hdiv : b * ceilDiv a b + (a + b - 1) % b = a + b - 1 := Nat.div_add_mod (a + b - 1) b
  have hmod : (a + b - 1) % b < b := Nat.mod_lt _ hb
  omega

/-- Settles O14: an occurrence is a cut of the hay into three parts, and a cut is a position. -/
theorem containmentIsContiguousOccurrence : Obligations.ContainmentIsContiguousOccurrence := fun hay needle =>
  (containsText_iff_append hay needle).trans (exists_append_iff_exists_position hay needle)

/-- Settles O28: the bounds of `ceilDiv` at eight bits to the byte. -/
theorem blockSizeRoundsUp : Obligations.BlockSizeRoundsUp := fun k =>
  ceilDiv_bounds k.sizeBits (by decide : 0 < 8)

end Sys2Proof.Machine
end

section
/-! PROOFS. What each host action and each command can do: the inversions from which the statements about the state
(spec/10_state.md) follow. -/

namespace Sys2Proof.Machine

/-- What a host action can answer (R33, R180), one constructor for each way in which it has a next state. `run` is what a
command word runs. -/
inductive ActionResult (run : Meanings) (s : State) : HostAction → State → Prop
  /-- A word written to `CMD` that encodes a command. -/
  | command {w : CmdWord} {i : Instr} {t : State} (hw : decode w = .ok i) (hrun : run i s = .next t) :
      ActionResult run s (.write .cmd (.word w)) t
  /-- A word written to `CMD` that encodes none (R154). -/
  | illegalWord (w : CmdWord) :
      ActionResult run s (.write .cmd (.word w)) (s.setStatus (statusError .illegalCommand))
  | writeByte (w : Byte) : ActionResult run s (.write .byte (.word w)) (s.setByte w)
  | writeBits (b : Bits8) : ActionResult run s (.write .bits (.bits b)) (s.setBits b)
  | writePlen (n : Nat) :
      ActionResult run s (.write .plen (.num n)) (s.setPlen (BitVec.ofNat (2 * Config.dimw) n))
  | writeEkey (k : Key) : ActionResult run s (.write .ekey (.key k)) (s.setEkey k)
  | writeDkey (k : Key) : ActionResult run s (.write .dkey (.key k)) (s.setDkey k)
  | writeMsg (m : Text) : ActionResult run s (.write .msg (.text m)) (s.setMsg m)
  /-- A write without effect, of a read-only register. -/
  | writeNothing (r : Reg) (v : HostValue) : ActionResult run s (.write r v) s
  | read {r : Reg} {v : HostValue} (hv : readReg r s = some v) : ActionResult run s (.read r) (s.setReply v)
  | attach {w h : Nat} {data : List Byte} (hd : attachAllowed w h data = true) :
      ActionResult run s (.attach w h data)
        (s.setImage (BitVec.ofNat Config.dimw w) (BitVec.ofNat Config.dimw h) (Memory.ofBytes data 0))
  | imgRead {a : Nat} (ha : a < s.imgSize) :
      ActionResult run s (.imgRead a) (s.setReply (.word (s.img.read a)))
  | imgWrite {a : Nat} (v : Byte) (ha : a < s.imgSize) :
      ActionResult run s (.imgWrite a v) (s.setImg (s.img.write a v))
  | reset : ActionResult run s .reset (hostReset s)

theorem ActionResult.of_issueCommand {run : Meanings} {w : CmdWord} {s t : State}
    (h : issueCommand run w s = .next t) : ActionResult run s (.write .cmd (.word w)) t := by
  cases hw : decode w with
  | ok i => exact .command hw (issueCommand_of_decode run w i s hw ▸ h)
  | error e =>
    rw [issueCommand_of_error run w e s hw] at h
    cases h
    exact .illegalWord w

/-- Every next state of a host action is one of `ActionResult`'s. -/
theorem ActionResult.of_performAction {run : Meanings} {a : HostAction} {s t : State}
    (h : performAction run a s = .next t) : ActionResult run s a t := by
  cases a with
  | write r v =>
    obtain ⟨w, rfl, rfl, hw⟩ | ⟨w, rfl, rfl, rfl⟩ | ⟨b, rfl, rfl, rfl⟩ | ⟨n, rfl, rfl, rfl⟩ | ⟨k, rfl, rfl, rfl⟩ |
      ⟨k, rfl, rfl, rfl⟩ | ⟨m, rfl, rfl, rfl⟩ | rfl := hostWrite_cases run r v s t h
    · exact .of_issueCommand hw
    · exact .writeByte w
    · exact .writeBits b
    · exact .writePlen n
    · exact .writeEkey k
    · exact .writeDkey k
    · exact .writeMsg m
    · exact .writeNothing r v
  | read r =>
    obtain ⟨v, hv, rfl⟩ := hostRead_cases r s t h
    exact .read hv
  | attach w hh data =>
    obtain ⟨hd, rfl⟩ := hostAttach_cases w hh data s t h
    exact .attach hd
  | imgRead a =>
    obtain ⟨ha, rfl⟩ := hostImgRead_cases a s t h
    exact .imgRead ha
  | imgWrite a v =>
    obtain ⟨ha, rfl⟩ := hostImgWrite_cases a v s t h
    exact .imgWrite v ha
  | reset =>
    cases h
    exact .reset

/-- What a step can do (R33, R183): nothing when the host does nothing, else what the host's next action can. -/
theorem step_cases {s t : State} (h : step s = .next t) :
    (s.pending = [] ∧ t = s) ∨
      ∃ a rest, s.pending = a :: rest ∧ ActionResult exec (s.setPending rest) a t := by
  rw [step] at h
  cases hp : s.pending with
  | nil =>
    rw [runNext_nil exec s hp] at h
    cases h
    exact .inl ⟨rfl, rfl⟩
  | cons a rest =>
    rw [runNext_cons exec s a rest hp] at h
    exact .inr ⟨a, rest, rfl, .of_performAction h⟩

/-- The operation field of a command that the decoder finds is the command's own (R73). -/
theorem encodeOp_of_decodeOp : ∀ {op : BitVec 3} {i : Instr}, decodeOp op = .ok i → encodeOp i = op := by
  have h : ∀ op : BitVec 3, ∀ i ∈ (decodeOp op).toOption, encodeOp i = op := by decide
  intro op i hi
  exact h op i (by simp [hi, Except.toOption])

/-- The word a command is decoded from is the command's own (R70, R77). -/
theorem encode_of_decode {w : CmdWord} {i : Instr} (h : decode w = .ok i) : encode i = w := by
  unfold decode at h
  split at h
  case isTrue hz =>
    calc encode i = zeroField w ++ opField w := by rw [hz, ← encodeOp_of_decodeOp h]; rfl
      _ = w := 
        (BitVec.extractLsb'_append_extractLsb'_eq_extractLsb' (rfl : 3 = 0 + 3)).trans BitVec.extractLsb'_eq_self
  case isFalse => cases h

/-- ENCODE changes IMG, `STATUS` and the count of draws at most, and no cell at or above `8 * L` (R119, R122). -/
theorem encodeWith_frame {P : CipherPort} {s t : State} (h : encodeWith P s = .next t) :
    t = { s with img := t.img, status := t.status, draws := t.draws } ∧
      ∀ k, s.ekey = some k → ∀ a, 8 * (framePayload P k s.msg s).1.length ≤ a → t.img.read a = s.img.read a := by
  obtain ⟨-, rfl⟩ | ⟨k, hk, ⟨-, rfl⟩ | ⟨-, -, rfl⟩ | ⟨-, -, rfl⟩⟩ := encodeWith_cases P s t h
  case inr.inr.inl =>
    refine ⟨rfl, fun k' hk' a ha => ?_⟩
    obtain rfl : k = k' := Option.some.inj (hk.symm.trans hk')
    exact embedCells_read_other _ 0 s.img a (.inr (by rwa [flatten_length, Nat.zero_add]))
  all_goals exact ⟨rfl, fun _ _ _ _ => rfl⟩

/-- DECODE changes `OUT` and `STATUS` at most (R140). -/
theorem decodeWith_frame {P : CipherPort} {s t : State} (h : decodeWith P s = .next t) :
    t = { s with out := t.out, status := t.status } := by
  obtain ⟨-, rfl⟩ | ⟨k, -, -, ⟨-, rfl⟩ | ⟨acc, -, rfl⟩⟩ := decodeWith_cases P s t h <;> rfl

/-- Settles O38: TOBITS, FROMBITS and CAPCHK by their equations, ENCODE and DECODE by the cases in which they end. -/
theorem commandFrame : Obligations.CommandFrame := by
  intro i s t h
  rw [exec_eq_execOver] at h
  cases i with
  | tobits => cases h; rfl
  | frombits => cases h; rfl
  | capchk => rw [execOver_capchk] at h; cases h; rfl
  | encode => exact encodeWith_frame h
  | decode => exact decodeWith_frame h

/-- What the five frames have in common: no command writes `PLEN`, a key, `MSG` or a dimension, CAPCHK alone writes
`CAP`, and DECODE alone writes `OUT` (R31). -/
theorem exec_frame {i : Instr} {s t : State} (h : exec i s = .next t) :
    t.plen = s.plen ∧ t.ekey = s.ekey ∧ t.dkey = s.dkey ∧ t.msg = s.msg ∧ t.width = s.width ∧ t.height = s.height ∧
      (i ≠ .capchk → t.cap = s.cap) ∧ (i ≠ .decode → t.out = s.out) := by
  have hf := commandFrame i s t h
  cases i with
  | encode => rw [hf.1]; simp
  | tobits | frombits | capchk | decode => rw [hf]; simp

end Sys2Proof.Machine
end

section
/-! PROOFS. The statements about the state (spec/10_state.md): the invariant, the host's accesses, the writers of each
register. -/

namespace Sys2Proof.Machine

/-! ### The invariant -/

/-- Settles O12: `W * H` is below `2 ^ (2 * DIMW)`, and the capacity is three eighths of it. -/
theorem capacityFitsCapRegister : Obligations.CapacityFitsCapRegister := by
  intro w h hw hh
  have hwh : w * h < 65536 * 65536 := Nat.mul_lt_mul'' hw hh
  change w * h * 3 / 8 < 2147483648
  omega

/-- The capacity of the attached image as CAPCHK writes it into `CAP` (R26, R105). -/
theorem capRegister_capacity_lt (s : State) :
    (BitVec.ofNat (2 * Config.dimw) s.capacity).toNat < 2 ^ (2 * Config.dimw - 1) :=
  calc (BitVec.ofNat (2 * Config.dimw) s.capacity).toNat
      ≤ s.capacity := by rw [BitVec.toNat_ofNat]; exact Nat.mod_le _ _
    _ < 2 ^ (2 * Config.dimw - 1) := capacityFitsCapRegister _ _ s.width.isLt s.height.isLt

/-- An allowed attach gives the image as many cells as it has data (R33, R34). -/
theorem imgSize_setImage_of_attachAllowed {w h : Nat} {data : List Byte} (hd : attachAllowed w h data = true)
    (s : State) (m : Memory) :
    (s.setImage (BitVec.ofNat Config.dimw w) (BitVec.ofNat Config.dimw h) m).imgSize = data.length := by
  obtain ⟨hw, hh, hl⟩ := (attachAllowed_iff w h data).mp hd
  rw [setImage_imgSize, BitVec.toNat_ofNat, BitVec.toNat_ofNat, Nat.mod_eq_of_lt hw, Nat.mod_eq_of_lt hh, hl,
    bitCapacity_eq]

theorem State.Inv.setStatus {s : State} {v : BitVec 8} (hs : s.Inv) (hv : legalStatus v = true) :
    (s.setStatus v).Inv := ⟨hv, hs.2⟩

/-- New cells in canonical form below the image's size keep the invariant. -/
theorem State.Inv.setImg {s : State} {m : Memory} (hs : s.Inv) (hwf : m.wf = true)
    (hbelow : m.below s.imgSize = true) : (s.setImg m).Inv := by
  obtain ⟨hstatus, hcap, -, -⟩ := hs
  exact ⟨hstatus, hcap, hwf, hbelow⟩

/-- CAPCHK's write of `CAP` keeps the invariant, whatever `CAP` held. -/
theorem State.Inv.setCap_capacity {s : State} (hs : s.Inv) :
    (s.setCap (BitVec.ofNat (2 * Config.dimw) s.capacity)).Inv := by
  obtain ⟨hstatus, -, himg⟩ := hs
  exact ⟨hstatus, capRegister_capacity_lt s, himg⟩

/-- An allowed attach keeps the invariant, whatever image was attached before. -/
theorem State.Inv.setImage {s : State} (hs : s.Inv) {w h : Nat} {data : List Byte}
    (hd : attachAllowed w h data = true) :
    (s.setImage (BitVec.ofNat Config.dimw w) (BitVec.ofNat Config.dimw h) (Memory.ofBytes data 0)).Inv := by
  obtain ⟨hstatus, hcap, -, -⟩ := hs
  refine ⟨hstatus, hcap, Memory.wf_ofBytes data, ?_⟩
  rw [imgSize_setImage_of_attachAllowed hd]
  simpa using Memory.below_ofBytes data 0

/-- The payload's bits go to cells below the image's size, by the capacity gate (R113). -/
theorem encodeWith_keeps_inv {P : CipherPort} {s t : State} (hs : s.Inv) (h : encodeWith P s = .next t) : t.Inv := by
  obtain ⟨-, rfl⟩ | ⟨k, -, ⟨-, rfl⟩ | ⟨-, hfits, rfl⟩ | ⟨-, -, rfl⟩⟩ := encodeWith_cases P s t h
  · exact hs.setStatus rfl
  · exact hs.setStatus rfl
  · have ⟨_, _, hwf, hbelow⟩ := hs
    exact (State.Inv.setImg (s := s.setDraws (s.draws + 2)) hs (embedCells_wf _ 0 s.img hwf)
      (embedCells_below s.imgSize _ 0 s.img (flatten_fits hfits) hbelow)).setStatus rfl
  · exact hs.setStatus rfl

/-- DECODE writes nothing that the invariant speaks of but `STATUS`. -/
theorem decodeWith_keeps_inv {P : CipherPort} {s t : State} (hs : s.Inv) (h : decodeWith P s = .next t) : t.Inv := by
  obtain ⟨-, rfl⟩ | ⟨k, -, -, ⟨-, rfl⟩ | ⟨acc, -, rfl⟩⟩ := decodeWith_cases P s t h
  all_goals exact hs.setStatus rfl

/-- Every command keeps the invariant, over every cipher. -/
theorem execOver_keeps_inv {P : CipherPort} {i : Instr} {s t : State} (hs : s.Inv)
    (h : execOver P i s = .next t) : t.Inv := by
  cases i with
  | tobits => cases h; exact hs.setStatus legalStatus_ok
  | frombits => cases h; exact hs.setStatus legalStatus_ok
  | capchk =>
    rw [execOver_capchk] at h
    cases h
    refine hs.setCap_capacity.setStatus ?_
    split
    · exact legalStatus_ok
    · exact legalStatus_error _
  | encode => exact encodeWith_keeps_inv hs h
  | decode => exact decodeWith_keeps_inv hs h

/-- Settles O56. -/
theorem resetMeetsTheInvariant : Obligations.ResetMeetsTheInvariant := by
  refine ⟨?status, ?cap, reset_img_wf, ?cells⟩ <;> decide

/-- Every host action keeps the invariant when every command does. -/
theorem ActionResult.keeps_inv {run : Meanings} (hrun : ∀ i s t, s.Inv → run i s = .next t → t.Inv) {a : HostAction}
    {s t : State} (hs : s.Inv) (h : ActionResult run s a t) : t.Inv := by
  cases h with
  | command hw hi => exact hrun _ s t hs hi
  | illegalWord => exact hs.setStatus (legalStatus_error _)
  | writeByte | writeBits | writePlen | writeEkey | writeDkey | writeMsg | writeNothing | read | imgRead => exact hs
  | attach hd => exact hs.setImage hd
  | imgWrite v ha =>
    have ⟨_, _, hwf, hbelow⟩ := hs
    exact hs.setImg (Memory.wf_write _ _ v hwf) (Memory.below_write _ _ _ v ha hbelow)
  | reset => exact resetMeetsTheInvariant

/-- Settles O57: a step is idle or a host action, and host actions and commands keep the invariant. -/
theorem stepKeepsTheInvariant : Obligations.StepKeepsTheInvariant := by
  intro s t hs h
  obtain ⟨-, rfl⟩ | ⟨a, rest, -, ha⟩ := step_cases h
  · exact hs
  · rw [exec_eq] at ha
    exact ha.keeps_inv (s := s.setPending rest) (fun _ _ _ => execOver_keeps_inv) hs

/-! ### The step and the host's accesses -/

/-- Settles O5. -/
theorem stepPerformsHostAction : Obligations.StepPerformsHostAction := fun s =>
  ⟨runNext_cons exec s, runNext_nil exec s⟩

/-- Settles O44. -/
theorem resetValues : Obligations.ResetValues := by
  unfold Obligations.ResetValues
  decide

/-- Settles O47: a host write of a value of the register's type is the register's own update; a number that fits is
its own 32-bit value. -/
theorem hostWritesOperandRegisters : Obligations.HostWritesOperandRegisters := by
  refine fun s => ⟨fun _ => rfl, fun _ => rfl, fun n hn => ?plen, fun _ => rfl, fun _ => rfl, fun _ => rfl⟩
  refine ⟨BitVec.ofNat (2 * Config.dimw) n, ?_, if_pos hn⟩
  rw [BitVec.toNat_ofNat, Nat.mod_eq_of_lt hn]

/-- Settles O48. -/
theorem hostWriteOfReadOnlyRegisterHasNoEffect : Obligations.HostWriteOfReadOnlyRegisterHasNoEffect := by
  rintro s v r (rfl | rfl | rfl | rfl | rfl) <;> rfl

/-- Settles O49. -/
theorem hostReadReturnsTheRegister : Obligations.HostReadReturnsTheRegister := fun _ =>
  ⟨rfl, rfl, rfl, rfl, rfl, rfl, rfl, rfl, rfl⟩

/-- Settles O50. -/
theorem hostCannotReadKeysOrCommandPort : Obligations.HostCannotReadKeysOrCommandPort := by
  rintro s r (rfl | rfl | rfl) <;> rfl

/-- Settles O51: the attach test decides between the two clauses, and the new cells are the memory of the data. -/
theorem attachSuppliesEveryCell : Obligations.AttachSuppliesEveryCell := by
  intro s w h data
  constructor
  case left =>
    intro hw hh hl
    have hd : attachAllowed w h data = true := (attachAllowed_iff w h data).mpr ⟨hw, hh, hl⟩
    have hsize := imgSize_setImage_of_attachAllowed hd s (Memory.ofBytes data 0)
    refine ⟨_, if_pos hd, rfl, Nat.mod_eq_of_lt hw, Nat.mod_eq_of_lt hh, hsize.trans hl, Memory.wf_ofBytes data, ?_,
      fun a ha => ?_⟩
    · rw [hsize]
      simpa using Memory.below_ofBytes data 0
    · simpa using Memory.read_ofBytes data 0 a ha
  case right =>
    intro hbad
    have hd : ¬ attachAllowed w h data = true := by
      rw [attachAllowed_iff]
      omega
    exact if_neg hd

/-- Settles O52: below `N` by the laws of reading after writing, at or above it by the address fault the host port turns
into a refusal. -/
theorem hostAccessesExistingCells : Obligations.HostAccessesExistingCells := by
  refine fun s a v => ⟨fun ha => ?read, fun ha hwf => ?write, fun ha => ⟨?readRefused, ?writeRefused⟩⟩
  case read =>
    simp only [performAction, hostImgRead, memRead_of_lt ha]
    rfl
  case write =>
    refine ⟨s.setImg (s.img.write a v), ?_, rfl, Memory.read_write_same s.img a v hwf,
      fun b hb => Memory.read_write_other s.img a b v hb⟩
    simp only [performAction, hostImgWrite, memWrite_of_lt v ha]
  case readRefused => simp only [performAction, hostImgRead, memRead_of_le ha]
  case writeRefused => simp only [performAction, hostImgWrite, memWrite_of_le v ha]

/-! ### The writers of the registers -/

/-- Which host actions change a read-only register (R22, R26, R30, R27). -/
theorem ActionResult.readOnlyWriters {a : HostAction} {s t : State} (h : ActionResult exec s a t) :
    (t.status ≠ s.status → a = .reset ∨ ∃ w, a = .write .cmd (.word w)) ∧
      (t.cap ≠ s.cap → a = .reset ∨ a = .write .cmd (.word 0x03)) ∧
      (t.out ≠ s.out → a = .reset ∨ a = .write .cmd (.word 0x05)) ∧
      (t.width ≠ s.width ∨ t.height ≠ s.height → a = .reset ∨ ∃ w h data, a = .attach w h data) := by
  cases h with
  | @command w i _ hw hi =>
    obtain ⟨-, -, -, -, hwidth, hheight, hcap, hout⟩ := exec_frame hi
    have hword : w = encode i := (encode_of_decode hw).symm
    refine ⟨fun _ => .inr ⟨w, rfl⟩, fun hne => .inr ?cap, fun hne => .inr ?out, by simp [hwidth, hheight]⟩
    case cap =>
      obtain rfl : i = .capchk := not_imp_comm.mp hcap hne
      rw [hword]
      rfl
    case out =>
      obtain rfl : i = .decode := not_imp_comm.mp hout hne
      rw [hword]
      rfl
  | _ => simp

/-- Which host actions change an operand register (R28, R29, R25): no command does. -/
theorem ActionResult.operandWriters {a : HostAction} {s t : State} (h : ActionResult exec s a t) :
    (t.ekey ≠ s.ekey → a = .reset ∨ ∃ k, a = .write .ekey (.key k)) ∧
      (t.dkey ≠ s.dkey → a = .reset ∨ ∃ k, a = .write .dkey (.key k)) ∧
      (t.msg ≠ s.msg → a = .reset ∨ ∃ m, a = .write .msg (.text m)) ∧
      (t.plen ≠ s.plen → a = .reset ∨ ∃ n, a = .write .plen (.num n)) := by
  cases h with
  | command hw hi =>
    obtain ⟨hplen, hekey, hdkey, hmsg, -⟩ := exec_frame hi
    simp [hplen, hekey, hdkey, hmsg]
  | _ => simp

/-- Settles O59: only a step that performs an action changes a register, and the action is the next one pending. -/
theorem writersOfTheReadOnlyRegisters : Obligations.WritersOfTheReadOnlyRegisters := by
  intro s t h
  obtain ⟨-, rfl⟩ | ⟨a, rest, hp, ha⟩ := step_cases h
  · simp
  · simpa [hp, ← or_and_right] using ha.readOnlyWriters

/-- Settles O60: as for the read-only registers. -/
theorem writersOfTheOperandRegisters : Obligations.WritersOfTheOperandRegisters := by
  intro s t h
  obtain ⟨-, rfl⟩ | ⟨a, rest, hp, ha⟩ := step_cases h
  · simp
  · simpa [hp, ← or_and_right] using ha.operandWriters

end Sys2Proof.Machine
end

section
/-! PROOFS. The statements about the memory (spec/20_memory.md): the order and the layout of the cells, and that no step
makes an access outside them. -/

namespace Sys2Proof.Machine

/-! ### The traversal order -/

/-- `n` blocks of `m` consecutive numbers each, one block after the other, are the numbers below `n * m` in order. -/
theorem range_flatMap_blocks (n m : Nat) :
    ((List.range n).flatMap fun i => (List.range m).map (i * m + ·)) = List.range (n * m) := by
  induction n with
  | zero => simp
  | succ n ih => rw [List.range_succ, List.flatMap_append, ih, List.flatMap_singleton, Nat.succ_mul, List.range_add]

/-- One row of the traversal is a block of `w * 3` consecutive addresses (R51). -/
theorem row_addresses (w r : Nat) :
    ((List.range w).flatMap fun c => (List.range Config.channels).map fun k => cellAddress w r c k) =
      (List.range (w * 3)).map (r * (w * 3) + ·) := by
  rw [← range_flatMap_blocks w 3, List.map_flatMap]
  simp only [List.map_map, cellAddress_eq, Function.comp_def, Nat.add_mul, Nat.mul_assoc, Nat.add_assoc]

/-- Settles O54: the pixels of a row are `w` blocks of three addresses, and the rows are `h` blocks of `w * 3`. -/
theorem traversalIsAscending : Obligations.TraversalIsAscending := by
  intro w h
  calc traversal w h
      = (List.range h).flatMap fun r => (List.range (w * 3)).map (r * (w * 3) + ·) := by
        simp only [traversal, row_addresses]
    _ = List.range (h * (w * 3)) := range_flatMap_blocks h (w * 3)
    _ = List.range (w * h * 3) := by rw [← Nat.mul_assoc, Nat.mul_comm h w]

/-! ### The layout of the cells -/

/-- An existing cell has an existing address (R50, R51). -/
theorem cellAddress_lt {w h r c k : Nat} (hr : r < h) (hc : c < w) (hk : k < 3) :
    cellAddress w r c k < w * h * 3 := by
  have hpixel : r * w + c < w * h :=
    calc r * w + c < (r + 1) * w := by rw [Nat.succ_mul]; omega
      _ ≤ h * w := Nat.mul_le_mul_right w hr
      _ = w * h := Nat.mul_comm h w
  rw [cellAddress_eq]
  omega

/-- The position in three successive divisions: the channel, the column, the row. -/
theorem cellPosition_eq_div_div (w a : Nat) : cellPosition w a = (a / 3 / w, a / 3 % w, a % 3) := by
  rw [cellPosition_eq, Nat.div_div_eq_div_mul]

theorem cellPosition_cellAddress {w r c k : Nat} (hc : c < w) (hk : k < 3) :
    cellPosition w (cellAddress w r c k) = (r, c, k) := by
  have hpixel : ((r * w + c) * 3 + k) / 3 = r * w + c := by omega
  have hchannel : ((r * w + c) * 3 + k) % 3 = k := by omega
  have hrow : (r * w + c) / w = r := by
    rw [Nat.mul_comm, Nat.mul_add_div (Nat.zero_lt_of_lt hc), Nat.div_eq_of_lt hc, Nat.add_zero]
  have hcolumn : (r * w + c) % w = c := Nat.mul_add_mod_of_lt hc
  rw [cellPosition_eq_div_div, cellAddress_eq, hpixel, hchannel, hrow, hcolumn]

/-- This direction holds for every width: division with remainder undoes itself for a divisor of 0 as well. -/
theorem cellAddress_cellPosition (w a : Nat) :
    cellAddress w (cellPosition w a).1 (cellPosition w a).2.1 (cellPosition w a).2.2 = a := by
  rw [cellPosition_eq_div_div, cellAddress_eq, Nat.div_add_mod', Nat.div_add_mod']

/-- Settles O55. -/
theorem cellAddressAndPositionAgree : Obligations.CellAddressAndPositionAgree :=
  ⟨fun _ _ _ _ _ hr hc hk => ⟨cellAddress_lt hr hc hk, cellPosition_cellAddress hc hk⟩,
    fun w a _ => cellAddress_cellPosition w a⟩

/-! ### No access outside the image -/

/-- ENCODE ends in a next state: `encodeWith_eq` rests on the capacity gate, which keeps `embed` inside the image
(R113, R118). -/
theorem encodeWith_completes (P : CipherPort) (s : State) : ∃ t, encodeWith P s = .next t := by
  rw [encodeWith_eq]
  cases s.ekey with
  | none => exact ⟨_, rfl⟩
  | some k =>
    dsimp only
    split
    · exact ⟨_, rfl⟩
    · split <;> exact ⟨_, rfl⟩

/-- DECODE ends in a next state: `decodeWith_eq` rests on `extractBits` reading the image's own cells (R131). -/
theorem decodeWith_completes (P : CipherPort) (s : State) : ∃ t, decodeWith P s = .next t := by
  rw [decodeWith_eq]
  cases s.dkey with
  | none => exact ⟨_, rfl⟩
  | some k =>
    dsimp only
    split
    · exact ⟨_, rfl⟩
    · split <;> exact ⟨_, rfl⟩

/-- Every command ends in a next state, over every cipher. -/
theorem execOver_completes (P : CipherPort) (i : Instr) (s : State) : ∃ t, execOver P i s = .next t := by
  cases i with
  | tobits => exact ⟨_, execOver_tobits P s⟩
  | frombits => exact ⟨_, execOver_frombits P s⟩
  | capchk => exact ⟨_, execOver_capchk P s⟩
  | encode => exact encodeWith_completes P s
  | decode => exact decodeWith_completes P s

/-- A word written to `CMD` ends in a next state when every command does: the other words take an exception (R154). -/
theorem issueCommand_completes {run : Meanings} (hrun : ∀ i s, ∃ t, run i s = .next t) (w : CmdWord) (s : State) :
    ∃ t, issueCommand run w s = .next t := by
  cases hw : decode w with
  | ok i => exact issueCommand_of_decode run w i s hw ▸ hrun i s
  | error e => exact ⟨_, issueCommand_of_error run w e s hw⟩

/-- A host write has a next state or is refused. -/
theorem hostWrite_ne_fault {run : Meanings} (hrun : ∀ i s, ∃ t, run i s = .next t) (r : Reg) (v : HostValue)
    (s : State) (f : Fault) : hostWrite run r v s ≠ .fault f := by
  intro h
  cases r with
  | cmd =>
    cases v with
    | word w =>
      obtain ⟨t, ht⟩ := issueCommand_completes hrun w s
      cases ht.symm.trans h
    | _ => cases h
  | plen =>
    cases v with
    | num n =>
      simp only [hostWrite] at h
      split at h <;> cases h
    | _ => cases h
  | byte | bits | ekey | dkey | msg => cases v <;> cases h
  | status | cap | width | height | out => cases h

/-- No host action faults when every command completes: the host port answers its own access to a cell that does not
exist with a refusal (R33). -/
theorem performAction_ne_fault {run : Meanings} (hrun : ∀ i s, ∃ t, run i s = .next t) (a : HostAction) (s : State)
    (f : Fault) : performAction run a s ≠ .fault f := by
  intro h
  cases a with
  | write r v => exact hostWrite_ne_fault hrun r v s f h
  | read | attach | imgRead | imgWrite =>
    simp only [performAction, hostRead, hostAttach, hostImgRead, hostImgWrite] at h
    split at h <;> cases h
  | reset => cases h

/-- Settles O58: a step is idle or a host action, and no host action faults. -/
theorem noStepFaults : Obligations.NoStepFaults := by
  intro s f h
  rw [step, exec_eq] at h
  cases hp : s.pending with
  | nil =>
    rw [runNext_nil _ s hp] at h
    cases h
  | cons a rest =>
    rw [runNext_cons _ s a rest hp] at h
    exact performAction_ne_fault (execOver_completes Config.cipher) a _ f h

end Sys2Proof.Machine
end

section
/-! PROOFS. The statements about the encoding (spec/30_encoding.md): the command words, what a write of one to `CMD`
does, and the pseudo-commands of the script notation. -/

namespace Sys2Proof.Machine

/-! ### The command words -/

/-- The word column of R73's table. -/
theorem encode_eq (i : Instr) :
    encode i =
      match i with
      | .tobits => 0x01
      | .frombits => 0x02
      | .capchk => 0x03
      | .encode => 0x04
      | .decode => 0x05 := by
  cases i <;> rfl

theorem decode_encode (i : Instr) : decode (encode i) = .ok i := by cases i <;> rfl

/-- The decoder answers a command on that command's own word alone (R70, R73, R77). -/
theorem decode_eq_ok_iff {w : CmdWord} {i : Instr} : decode w = .ok i ↔ w = encode i := by
  constructor
  · exact fun h => (encode_of_decode h).symm
  · rintro rfl
    exact decode_encode i

theorem encode_toNat_bounds (i : Instr) : 1 ≤ (encode i).toNat ∧ (encode i).toNat ≤ 5 := by cases i <;> decide

/-- A word outside R73's table is illegal (R74): a command's word lies between 1 and 5. -/
theorem exists_decode_eq_error {w : CmdWord} (hw : w.toNat = 0 ∨ 6 ≤ w.toNat) : ∃ e, decode w = .error e := by
  cases hd : decode w with
  | ok i =>
    obtain rfl := decode_eq_ok_iff.mp hd
    have := encode_toNat_bounds i
    omega
  | error e => exact ⟨e, rfl⟩

/-- Settles O1: each row of the table is a command with its own word. -/
theorem commandWordTable : Obligations.CommandWordTable := by
  intro w i
  rw [decode_eq_ok_iff, encode_eq]
  cases i <;> simp

/-- Settles O2. -/
theorem decodeAndEncodeAgree : Obligations.DecodeAndEncodeAgree :=
  ⟨fun i _ => decode_encode i, fun _ _ => encode_of_decode⟩

/-! ### A write to the command port -/

/-- Settles O3: the decoder refuses the word, so issuing it is the exception `IllegalCommand`, whose word is 0x42. -/
theorem illegalWordWritesStatusOnly : Obligations.IllegalWordWritesStatusOnly := by
  intro w s hw
  obtain ⟨e, he⟩ := exists_decode_eq_error hw
  refine ⟨⟨e, he⟩, ?_⟩
  rw [step_placeCommand, issueCommand_of_error exec w e s he, statusError_eq]
  rfl

/-- Settles O4: the step performs the pending write of `CMD`, which issues the word. -/
theorem stepRunsDecodedCommand : Obligations.StepRunsDecodedCommand := by
  intro s w i rest hpending hdecode _
  calc step s
      = issueCommand exec w (s.setPending rest) := runNext_cons exec s _ rest hpending
    _ = exec i { s with pending := rest } := issueCommand_of_decode exec w i _ hdecode

/-! ### The pseudo-commands -/

theorem performAll_singleton (run : Meanings) (a : HostAction) (s : State) :
    performAll run [a] s = performAction run a s := by
  rw [performAll]
  cases performAction run a s <;> rfl

/-- The script of one line ends as the line's host actions do (R80). -/
theorem runScript_singleton_outcome (run : Meanings) (l : ScriptLine) (s : State) :
    (runScript run [l] s).outcome = performAll run (l.actions s) s := by
  rw [runScript]
  cases performAll run (l.actions s) s <;> rfl

/-- A mnemonic line runs its command: the line writes the command's own word to `CMD` (R80). -/
theorem runScript_command_outcome (run : Meanings) (i : Instr) (s : State) :
    (runScript run [.command i] s).outcome = run i s :=
  calc (runScript run [.command i] s).outcome
      = performAll run [.write .cmd (.word (encode i))] s := runScript_singleton_outcome run _ s
    _ = issueCommand run (encode i) s := performAll_singleton run _ s
    _ = run i s := issueCommand_of_decode run _ i s (decode_encode i)

/-- A script goes on after a `SET` line from the state that the host's write answers (R80). -/
theorem runScript_set_outcome {run : Meanings} {r : Reg} {v : HostValue} {s t : State}
    (h : performAction run (.write r v) s = .next t) (ls : List ScriptLine) :
    (runScript run (.set r v :: ls) s).outcome = (runScript run ls t).outcome := by
  have hline : performAll run ((ScriptLine.set r v).actions s) s = .next t := (performAll_singleton run _ s).trans h
  rw [runScript, hline]

/-- One `SET` line and a command (R83). -/
theorem runScript_set_command_outcome {run : Meanings} {r : Reg} {v : HostValue} {s t : State}
    (h : performAction run (.write r v) s = .next t) (i : Instr) :
    (runScript run [.set r v, .command i] s).outcome = run i t :=
  (runScript_set_outcome h _).trans (runScript_command_outcome run i t)

/-- The host can write every value of `PLEN`'s type (R25, R33). -/
theorem hostWrite_plen_toNat (s : State) (p : Wide) :
    performAction exec (.write .plen (.num p.toNat)) s = .next { s with plen := p } := by
  obtain ⟨-, -, hplen, -⟩ := hostWritesOperandRegisters s
  obtain ⟨q, hq, hwrite⟩ := hplen p.toNat p.isLt
  rwa [BitVec.eq_of_toNat_eq hq] at hwrite

/-- Settles O53: each `SET` line is the host's write of the operand register (O47), and the last line is the command. -/
theorem pseudoCommandsCallTheCommands : Obligations.PseudoCommandsCallTheCommands := by
  intro s
  obtain ⟨hbyte, hbits, -, -, hdkey, hmsg⟩ := hostWritesOperandRegisters s
  refine ⟨fun v => ?tobits, fun b => ?frombits, fun p => ?capchk, fun m k => ?encode, fun k => ?decode⟩
  case tobits => exact runScript_set_command_outcome (hbyte v) .tobits
  case frombits => exact runScript_set_command_outcome (hbits b) .frombits
  case capchk => exact runScript_set_command_outcome (hostWrite_plen_toNat s p) .capchk
  case encode =>
    obtain ⟨-, -, -, hekey, -⟩ := hostWritesOperandRegisters { s with msg := m }
    exact (runScript_set_outcome (hmsg m) _).trans (runScript_set_command_outcome (hekey k) .encode)
  case decode => exact runScript_set_command_outcome (hdkey k) .decode

end Sys2Proof.Machine
end

section
/-! PROOFS. The statements about the bit packer (spec/40_bitpack.md): the bits of `to_bits` and `from_bits` by position,
their inverses, and the two commands. -/

namespace Sys2Proof.Machine

/-! ### Bit positions -/

/-- A bit of a byte as a digit of the byte's number. -/
theorem getLsbD_eq_true_iff_div_mod (b : Byte) (j : Nat) : b.getLsbD j = true ↔ b.toNat / 2 ^ j % 2 = 1 := by
  rw [← BitVec.testBit_toNat, Nat.testBit_eq_decide_div_mod_eq, decide_eq_true_iff]

/-- Most-significant bit first (R90). -/
theorem toBits_getElem (b : Byte) {i : Nat} (h : i < 8) : (toBits b)[i] = b.getLsbD (7 - i) := by
  interval_cases i <;> rfl

/-- The digits of `from_bits`'s sum. -/
theorem toNat_getElem_le_one (s : Bits8) :
    (s[0].toNat ≤ 1 ∧ s[1].toNat ≤ 1 ∧ s[2].toNat ≤ 1 ∧ s[3].toNat ≤ 1) ∧
      s[4].toNat ≤ 1 ∧ s[5].toNat ≤ 1 ∧ s[6].toNat ≤ 1 ∧ s[7].toNat ≤ 1 := by
  refine ⟨⟨?_, ?_, ?_, ?_⟩, ?_, ?_, ?_, ?_⟩ <;> exact Bool.toNat_le _

/-- The weighted sum of eight bits fits a byte (R91). -/
theorem fromBits_toNat (s : Bits8) :
    (fromBits s).toNat = s[0].toNat * 128 + s[1].toNat * 64 + s[2].toNat * 32 + s[3].toNat * 16 + s[4].toNat * 8
      + s[5].toNat * 4 + s[6].toNat * 2 + s[7].toNat * 1 := by
  have hdigits := toNat_getElem_le_one s
  rw [fromBits, BitVec.toNat_ofNat]
  exact Nat.mod_eq_of_lt (by omega)

/-- Element `i` is the weighted sum's binary digit of weight `2 ^ (7 - i)`. -/
theorem fromBits_toNat_div_mod (s : Bits8) {i : Nat} (h : i < 8) :
    (fromBits s).toNat / 2 ^ (7 - i) % 2 = s[i].toNat := by
  have hdigits := toNat_getElem_le_one s
  rw [fromBits_toNat]
  interval_cases i <;> omega

/-- The first element becomes the most-significant bit (R91). -/
theorem fromBits_getLsbD (s : Bits8) {i : Nat} (h : i < 8) : (fromBits s).getLsbD (7 - i) = s[i] := by
  rw [Bool.eq_iff_iff, getLsbD_eq_true_iff_div_mod, fromBits_toNat_div_mod s h, Bool.toNat_eq_one]

/-- Both functions keep the order of the bits, so the byte comes back bit by bit (R93). -/
@[simp] theorem fromBits_toBits (b : Byte) : fromBits (toBits b) = b := by
  apply BitVec.eq_of_getLsbD_eq
  intro j hj
  obtain ⟨i, hi, rfl⟩ : ∃ i, i < 8 ∧ j = 7 - i := ⟨7 - j, by omega, by omega⟩
  rw [fromBits_getLsbD _ hi, toBits_getElem _ hi]

@[simp] theorem toBits_fromBits (s : Bits8) : toBits (fromBits s) = s := by
  apply Vector.ext
  intro i hi
  rw [toBits_getElem _ hi, fromBits_getLsbD _ hi]

/-- Settles O6. -/
theorem unpackedBitPositions : Obligations.UnpackedBitPositions := by
  intro b i h
  rw [toBits_getElem b h]
  exact ⟨rfl, getLsbD_eq_true_iff_div_mod b (7 - i)⟩

/-- Settles O7. -/
theorem packedByteValue : Obligations.PackedByteValue := fun s =>
  ⟨fromBits_toNat s, fun _ h => fromBits_getLsbD s h⟩

/-- Settles O8. -/
theorem packAndUnpackInverse : Obligations.PackAndUnpackInverse := ⟨fromBits_toBits, toBits_fromBits⟩

/-! ### The commands -/

/-- TOBITS's whole effect in this machine (R92). -/
theorem exec_tobits (s : State) : exec .tobits s = .next { s with bits := toBits s.byte, status := 0x01 } := by
  rw [exec_eq_execOver, execOver_tobits]
  rfl

/-- FROMBITS's whole effect in this machine (R94). -/
theorem exec_frombits (s : State) : exec .frombits s = .next { s with byte := fromBits s.bits, status := 0x01 } := by
  rw [exec_eq_execOver, execOver_frombits]
  rfl

/-- Settles O9: the word is the command's own, the effect is `exec_tobits`, and the examples are closed. -/
theorem tobitsResult : Obligations.TobitsResult :=
  ⟨decode_encode .tobits, exec_tobits, by decide⟩

/-- FROMBITS on the bits that TOBITS wrote leaves the byte. -/
theorem exec_frombits_byte_of_exec_tobits {s t u : State} (ht : exec .tobits s = .next t)
    (hu : exec .frombits t = .next u) : u.byte = s.byte := by
  rw [exec_tobits] at ht
  cases ht
  rw [exec_frombits] at hu
  cases hu
  exact fromBits_toBits s.byte

/-- TOBITS on the byte that FROMBITS wrote leaves the bits. -/
theorem exec_tobits_bits_of_exec_frombits {s t u : State} (ht : exec .frombits s = .next t)
    (hu : exec .tobits t = .next u) : u.bits = s.bits := by
  rw [exec_frombits] at ht
  cases ht
  rw [exec_tobits] at hu
  cases hu
  exact toBits_fromBits s.bits

/-- Settles O10: as O9, and the two compositions by the inverse laws. -/
theorem frombitsResult : Obligations.FrombitsResult := by
  refine ⟨decode_encode .frombits, exec_frombits, ?zeros, ?ones, ?bit6, ?bit1, ?bits52,
    fun _ _ _ => exec_frombits_byte_of_exec_tobits, fun _ _ _ => exec_tobits_bits_of_exec_frombits⟩
  all_goals decide

end Sys2Proof.Machine
end

section
/-! PROOFS. The statements about the capacity checker (spec/41_capacity.md): the capacity test in bytes and in bits, and
CAPCHK's two outcomes. -/

namespace Sys2Proof.Machine

/-- Settles O13: the two forms of the capacity gate. -/
theorem capacityTestInBits : Obligations.CapacityTestInBits := fun w h len =>
  ⟨fits_iff w h len, fits_iff_bits w h len⟩

/-- `CAP` holds the whole capacity: the write does not wrap (R26, R105). -/
theorem capRegister_capacity_toNat (s : State) :
    (BitVec.ofNat (2 * Config.dimw) s.capacity).toNat = s.width.toNat * s.height.toNat * 3 / 8 := by
  have hcap : s.capacity < 2 ^ (2 * Config.dimw - 1) := capacityFitsCapRegister _ _ s.width.isLt s.height.isLt
  have hwidth : 2 ^ (2 * Config.dimw - 1) ≤ 2 ^ (2 * Config.dimw) := by decide
  rw [BitVec.toNat_ofNat, Nat.mod_eq_of_lt (hcap.trans_le hwidth)]
  rfl

/-- CAPCHK's whole effect in this machine, with the test as `PLEN` above the capacity (R105). -/
theorem exec_capchk (s : State) :
    exec .capchk s = .next
      { s with
        cap := BitVec.ofNat (2 * Config.dimw) s.capacity
        status := if s.width.toNat * s.height.toNat * 3 / 8 < s.plen.toNat then 0x22 else 0x01 } := by
  rw [exec_eq_execOver, execOver_capchk]
  by_cases hlt : s.width.toNat * s.height.toNat * 3 / 8 < s.plen.toNat
  · rw [if_neg (mt (fits_iff _ _ _).mp (Nat.not_le_of_lt hlt)), if_pos hlt]
    rfl
  · rw [if_pos ((fits_iff _ _ _).mpr (Nat.le_of_not_lt hlt)), if_neg hlt]
    rfl

/-- Settles O11: the effect is `exec_capchk`, and `CAP` is the exact capacity by `capRegister_capacity_toNat`. -/
theorem capchkResult : Obligations.CapchkResult :=
  ⟨decode_encode .capchk, fun s => ⟨_, exec_capchk s, capRegister_capacity_toNat s, rfl, rfl⟩⟩

end Sys2Proof.Machine
end

section
/-! PROOFS. The statements about the encoder (spec/42_encode.md): the payload's bits, the replacement of a cell's
least-significant bit, what an ENCODE of each outcome leaves behind, and that every command completes. -/

namespace Sys2Proof.Machine

/-! ### Flattening and regrouping -/

/-- Settles O15: by induction on the payload, whose first byte is the first eight bits. -/
theorem flattenedBitPositions : Obligations.FlattenedBitPositions := by
  refine ⟨rfl, fun p => ⟨flatten_length p, ?_⟩⟩
  induction p with
  | nil => simp
  | cons b p ih =>
    intro j hj i hi
    rw [flatten_cons]
    cases j with
    | zero =>
      rw [List.getElem?_append_left (by simpa using hi)]
      simp [hi, toBits_getElem]
    | succ j =>
      rw [List.getElem?_append_right (by simp; omega)]
      have hrest : 8 * (j + 1) + i - (toBits b).toList.length = 8 * j + i := by simp; omega
      rw [hrest, List.getElem_cons_succ]
      exact ih j (by simpa using hj) i hi

/-- The first byte's bits are one group of eight, which packs to that byte (R93, R132). -/
theorem regroup_toBits_append (b : Byte) (bits : List Bool) :
    regroup ((toBits b).toList ++ bits) = b :: regroup bits :=
  calc regroup ((toBits b).toList ++ bits)
      = fromBits (toBits b) :: regroup bits := rfl
    _ = b :: regroup bits := by rw [fromBits_toBits]

/-- Regrouping undoes flattening, whatever bits follow the payload (R114, R132). -/
theorem regroup_flatten_append (p : List Byte) (bits : List Bool) :
    regroup (flatten p ++ bits) = p ++ regroup bits := by
  induction p with
  | nil => rfl
  | cons b p ih => rw [flatten_cons, List.append_assoc, regroup_toBits_append, ih, List.cons_append]

/-! ### Replacing the least-significant bit -/

/-- The replacement bit by bit (R115). -/
theorem setLsb_getLsbD (v : Byte) (b : Bool) (i : Nat) :
    (setLsb v b).getLsbD i = if i = 0 then b else v.getLsbD i := by
  by_cases hi : i < 8
  · interval_cases i <;> cases b <;> simp [setLsb]
  · have hge : 8 ≤ i := Nat.le_of_not_lt hi
    rw [if_neg (by omega), BitVec.getLsbD_of_ge _ i hge, BitVec.getLsbD_of_ge _ i hge]

@[simp] theorem setLsb_getLsbD_zero (v : Byte) (b : Bool) : (setLsb v b).getLsbD 0 = b := setLsb_getLsbD v b 0

theorem setLsb_getLsbD_of_pos (v : Byte) (b : Bool) {i : Nat} (hpos : 1 ≤ i) :
    (setLsb v b).getLsbD i = v.getLsbD i :=
  (setLsb_getLsbD v b i).trans (if_neg (Nat.ne_of_gt hpos))

theorem toNat_mod_two (v : Byte) : v.toNat % 2 = (v.getLsbD 0).toNat := by
  rw [← BitVec.testBit_toNat, Nat.toNat_testBit, Nat.pow_zero, Nat.div_one]

/-- The upper seven bits as a number are kept. -/
theorem setLsb_toNat_div_two (v : Byte) (b : Bool) : (setLsb v b).toNat / 2 = v.toNat / 2 := by
  apply Nat.eq_of_testBit_eq
  intro i
  rw [Nat.testBit_div_two, Nat.testBit_div_two, BitVec.testBit_toNat, BitVec.testBit_toNat]
  exact setLsb_getLsbD_of_pos v b (Nat.le_add_left 1 i)

/-- The new byte and the old one differ in bit 0 at most (R117). -/
theorem setLsb_xor_toNat_le_one (v : Byte) (b : Bool) : (setLsb v b ^^^ v).toNat ≤ 1 := by
  have hupper : (setLsb v b ^^^ v).toNat / 2 = 0 := by
    rw [BitVec.toNat_xor, Nat.xor_div_two, setLsb_toNat_div_two, Nat.xor_self]
  omega

/-- Settles O16: the number is twice its upper seven bits and its bit 0. -/
theorem lsbReplacement : Obligations.LsbReplacement := by
  refine fun v b => ⟨setLsb_getLsbD_zero v b, fun i hpos _ => setLsb_getLsbD_of_pos v b hpos, ?number⟩
  have hupper := setLsb_toNat_div_two v b
  have hbit := toNat_mod_two (setLsb v b)
  rw [setLsb_getLsbD_zero] at hbit
  omega

/-- In the unpacked byte the replacement is of the last element (R116). -/
theorem toBits_setLsb (v : Byte) (b : Bool) :
    toBits (setLsb v b) = #v[(toBits v)[0], (toBits v)[1], (toBits v)[2], (toBits v)[3], (toBits v)[4], (toBits v)[5],
      (toBits v)[6], b] := by
  apply Vector.ext
  intro i hi
  rw [toBits_getElem _ hi, setLsb_getLsbD]
  interval_cases i <;> rfl

/-- Settles O17: the first clause packs `toBits_setLsb`, the last two compare the bytes bit by bit. -/
theorem lsbReplacementLaws : Obligations.LsbReplacementLaws := by
  refine fun v b => ⟨?packer, setLsb_xor_toNat_le_one v b, ?own, fun c => ?twice⟩
  case packer => rw [← toBits_setLsb, fromBits_toBits]
  case own =>
    apply BitVec.eq_of_getLsbD_eq
    intro i _
    rw [setLsb_getLsbD]
    split
    case isTrue hi => rw [hi]
    case isFalse => rfl
  case twice =>
    apply BitVec.eq_of_getLsbD_eq
    intro i _
    rw [setLsb_getLsbD, setLsb_getLsbD, setLsb_getLsbD]
    split <;> rfl

/-! ### ENCODE's four outcomes -/

section

variable {P : CipherPort} {s : State} {k : Key}

theorem encodeWith_of_no_key (hk : s.ekey = none) : encodeWith P s = .next (s.setStatus 0x52) := by
  rw [encodeWith_eq, hk]
  rfl

theorem encodeWith_of_forbidden (hk : s.ekey = some k) (hc : containsText s.msg P.sentinel = true) :
    encodeWith P s = .next (s.setStatus 0x12) := by
  rw [encodeWith_eq, hk]
  exact if_pos hc

theorem encodeWith_of_fits (hk : s.ekey = some k) (hc : containsText s.msg P.sentinel = false)
    (hf : fits s.width.toNat s.height.toNat (framePayload P k s.msg s).1.length = true) :
    encodeWith P s = .next (((s.setDraws (s.draws + 2)).setImg
      (embedCells (flatten (framePayload P k s.msg s).1) 0 s.img)).setStatus 0x01) := by
  rw [encodeWith_eq, hk]
  exact (if_neg (by simp [hc])).trans (if_pos hf)

theorem encodeWith_of_not_fits (hk : s.ekey = some k) (hc : containsText s.msg P.sentinel = false)
    (hf : fits s.width.toNat s.height.toNat (framePayload P k s.msg s).1.length = false) :
    encodeWith P s = .next ((s.setDraws (s.draws + 2)).setStatus 0x22) := by
  rw [encodeWith_eq, hk]
  exact (if_neg (by simp [hc])).trans (if_neg (by simp [hf]))

/-- An ENCODE that ends with `OK` had a payload that fits, and embedded it. -/
theorem encodeWith_ok {t : State} (hk : s.ekey = some k) (h : encodeWith P s = .next t) (hok : t.status = 0x01) :
    fits s.width.toNat s.height.toNat (framePayload P k s.msg s).1.length = true ∧
      t.img = embedCells (flatten (framePayload P k s.msg s).1) 0 s.img ∧ t.imgSize = s.imgSize := by
  obtain ⟨-, rfl⟩ | ⟨k', hk', ⟨-, rfl⟩ | ⟨-, hf, rfl⟩ | ⟨-, -, rfl⟩⟩ := encodeWith_cases P s t h
  case inr.inr.inl =>
    obtain rfl : k' = k := Option.some.inj (hk'.symm.trans hk)
    exact ⟨hf, rfl, rfl⟩
  all_goals cases hok

end

/-- The cells under bits embedded from address 0 on. -/
theorem embedCells_zero_read {bits : List Bool} {m : Memory} {a : Nat} (h : a < bits.length) (hm : m.wf = true) :
    (embedCells bits 0 m).read a = setLsb (m.read a) bits[a] := by
  simpa only [Nat.zero_add] using embedCells_read_bit bits 0 m a h hm

theorem exec_encode (s : State) : exec .encode s = encodeWith Config.cipher s := rfl

/-- Settles O20: the capacity gate decides between the last two outcomes, and the cells are the embedding's. -/
theorem encodeHidesThePayload : Obligations.EncodeHidesThePayload := by
  intro s k hk hc hwf
  rw [exec_encode]
  have hgate := fits_iff s.width.toNat s.height.toNat (framePayload Config.cipher k s.msg s).1.length
  cases hf : fits s.width.toNat s.height.toNat (framePayload Config.cipher k s.msg s).1.length with
  | true =>
    have hrun := encodeWith_of_fits hk hc hf
    refine ⟨_, (framePayload Config.cipher k s.msg s).1, hrun, rfl, ?_⟩
    rw [if_pos (hgate.mp hf)]
    exact ⟨rfl, embedCells_wf _ 0 s.img hwf, fun a ha => embedCells_zero_read ha hwf, (encodeWith_frame hrun).2 k hk⟩
  | false =>
    refine ⟨_, (framePayload Config.cipher k s.msg s).1, encodeWith_of_not_fits hk hc hf, rfl, ?_⟩
    rw [if_neg (by simp [← hgate, hf])]
    rfl

/-- Settles O21: the frame of every ENCODE, successful or not. -/
theorem encodeKeepsCellsBeyondPayload : Obligations.EncodeKeepsCellsBeyondPayload :=
  fun _ _ _ k hk h _ => (encodeWith_frame h).2 k hk

/-- Settles O22: a touched cell is its old byte with the least-significant bit replaced. -/
theorem encodeTouchesLeastSignificantBitsOnly : Obligations.EncodeTouchesLeastSignificantBitsOnly := by
  intro P s t k hwf hk h hok a ha
  obtain ⟨-, himg, -⟩ := encodeWith_ok hk h hok
  rw [himg, embedCells_zero_read ha hwf]
  exact ⟨setLsb_xor_toNat_le_one _ _, setLsb_getLsbD_zero _ _, fun i hpos _ => setLsb_getLsbD_of_pos _ _ hpos⟩

/-- Settles O23: the one outcome that writes cells ends with `OK`. -/
theorem failedEncodeLeavesTheImage : Obligations.FailedEncodeLeavesTheImage := by
  intro s t h herror
  rw [exec_encode] at h
  obtain ⟨-, rfl⟩ | ⟨k, -, ⟨-, rfl⟩ | ⟨-, -, rfl⟩ | ⟨-, -, rfl⟩⟩ := encodeWith_cases Config.cipher s t h
  case inr.inr.inl => cases herror
  all_goals exact ⟨rfl, rfl⟩

/-! ### Reading the payload back -/

/-- The Bitstream's first bits, given the cells they stand in (R131). -/
theorem bitstream_take_eq {u : State} {bits : List Bool} (hlen : bits.length ≤ u.imgSize)
    (hbits : ∀ (a : Nat) (h : a < bits.length), (u.img.read a).getLsbD 0 = bits[a]) :
    u.bitstream.take bits.length = bits := by
  apply List.ext_getElem
  · simpa [State.bitstream] using hlen
  · intro a _ h
    simpa [State.bitstream] using hbits a h

/-- A Bitstream that starts with a payload's bits gives a byte stream that starts with the payload (R132). -/
theorem candidateBytes_take_eq {u : State} {p : List Byte} (h : u.bitstream.take (flatten p).length = flatten p) :
    u.candidateBytes.take p.length = p := by
  have hcut : u.bitstream = flatten p ++ u.bitstream.drop (flatten p).length := by
    simpa only [h] using (List.take_append_drop (flatten p).length u.bitstream).symm
  rw [State.candidateBytes, hcut, regroup_flatten_append, List.take_left]

/-- Settles O24: the cells hold the payload's bits, so the Bitstream starts with them, and regrouping undoes
flattening. -/
theorem encodedPayloadReadsBack : Obligations.EncodedPayloadReadsBack := by
  intro P s t u k hwf hk h hok hsize hcells
  obtain ⟨hf, himg, htsize⟩ := encodeWith_ok hk h hok
  have hroom := flatten_fits hf
  rw [← flatten_length] at hcells ⊢
  have hstream : u.bitstream.take (flatten (framePayload P k s.msg s).1).length =
      flatten (framePayload P k s.msg s).1 :=
    bitstream_take_eq (by omega) fun a ha => by
      rw [hcells a ha, himg, embedCells_zero_read ha hwf, setLsb_getLsbD_zero]
  exact ⟨hstream, candidateBytes_take_eq hstream⟩

/-! ### The operands and completion -/

/-- Settles O25: the second state is the first with other values in the fields that none of the four outcomes reads. -/
theorem encodeReadsItsOperandsOnly : Obligations.EncodeReadsItsOperandsOnly := by
  rintro s ⟨status, byte, bits, plen, cap, _, _, _, dkey, _, out, _, pending, reply, _⟩ rfl rfl rfl rfl rfl rfl
  rw [exec_encode, exec_encode]
  obtain hk | ⟨k, hk⟩ := Option.eq_none_or_eq_some s.ekey
  · exact ⟨s.img, _, s.draws, encodeWith_of_no_key hk, encodeWith_of_no_key hk⟩
  · cases hc : containsText s.msg Config.cipher.sentinel with
    | true => exact ⟨s.img, _, s.draws, encodeWith_of_forbidden hk hc, encodeWith_of_forbidden hk hc⟩
    | false =>
      cases hf : fits s.width.toNat s.height.toNat (framePayload Config.cipher k s.msg s).1.length with
      | true => exact ⟨_, _, _, encodeWith_of_fits hk hc hf, encodeWith_of_fits hk hc hf⟩
      | false => exact ⟨s.img, _, _, encodeWith_of_not_fits hk hc hf, encodeWith_of_not_fits hk hc hf⟩

/-- Settles O37: every command completes over every cipher, so over this instance's. -/
theorem everyCommandCompletes : Obligations.EveryCommandCompletes := by
  intro i s _
  rw [exec_eq_execOver]
  exact execOver_completes Config.cipher i s

end Sys2Proof.Machine
end

section
/-! PROOFS. The statements about the decoder (spec/43_decode.md): the candidate byte stream, the de-framing loop as a
search for the first sentinel block, DECODE's result as a function of the key and the stream, and the round trip. -/

namespace Sys2Proof.Machine

/-! ### Extraction and regrouping -/

theorem bitstream_length (s : State) : s.bitstream.length = s.imgSize := by simp [State.bitstream]

theorem bitstream_getElem (s : State) {t : Nat} (h : t < s.bitstream.length) :
    s.bitstream[t] = (s.img.read t).getLsbD 0 := by
  simp [State.bitstream]

/-- Settles O26: what is extracted is the Bitstream. -/
theorem extractionReadsEveryCell : Obligations.ExtractionReadsEveryCell := fun s =>
  ⟨s.bitstream, extractBits_all s, (bitstream_length s).trans (imgSize_eq s), fun _ h => bitstream_getElem s h⟩

/-- Flattening undoes regrouping, up to the bits at the end that make no byte (R114, R132, R133). -/
theorem exists_flatten_regroup_append : ∀ bits : List Bool,
    ∃ rest, rest.length < 8 ∧ bits = flatten (regroup bits) ++ rest
  | b0 :: b1 :: b2 :: b3 :: b4 :: b5 :: b6 :: b7 :: bits => by
    obtain ⟨rest, hshort, hbits⟩ := exists_flatten_regroup_append bits
    refine ⟨rest, hshort, ?_⟩
    rw [regroup_cons8, flatten_cons, toBits_fromBits, List.append_assoc, ← hbits]
    rfl
  | [] | [_] | [_, _] | [_, _, _] | [_, _, _, _] | [_, _, _, _, _] | [_, _, _, _, _, _] | [_, _, _, _, _, _, _] =>
    ⟨_, by simp, rfl⟩

theorem regroup_length (bits : List Bool) : (regroup bits).length = bits.length / 8 := by
  obtain ⟨rest, hshort, hbits⟩ := exists_flatten_regroup_append bits
  have hlen : bits.length = 8 * (regroup bits).length + rest.length := by
    rw [← flatten_length, ← List.length_append, ← hbits]
  omega

theorem candidateBytes_length (s : State) : s.candidateBytes.length = s.imgSize / 8 := by
  rw [State.candidateBytes, regroup_length, bitstream_length]

/-- Settles O27: the bits are the flattened bytes and a rest, and O15 gives the flattened bytes by position. -/
theorem regroupedBytes : Obligations.RegroupedBytes := by
  refine fun bits => ⟨regroup_length bits, fun j hj i hi => ?_⟩
  obtain ⟨rest, -, hbits⟩ := exists_flatten_regroup_append bits
  obtain ⟨-, hflat⟩ := flattenedBitPositions.2 (regroup bits)
  calc bits[8 * j + i]?
      = (flatten (regroup bits) ++ rest)[8 * j + i]? := by rw [← hbits]
    _ = (flatten (regroup bits))[8 * j + i]? := List.getElem?_append_left (by rw [flatten_length]; omega)
    _ = some ((regroup bits)[j].getLsbD (7 - i)) := hflat j hj i hi

/-! ### The de-framing loop is a search for the first sentinel block -/

/-- What block `q` of a byte sequence decrypts to (R137). -/
def blockText (P : CipherPort) (k : Key) (bytes : List Byte) (q : Nat) : Text :=
  P.decrypt k (blockAt bytes (blockSize k) (q * blockSize k))

/-- No whole block decrypts to the sentinel (R153). -/
def NoSentinelBlock (P : CipherPort) (k : Key) (bytes : List Byte) : Prop :=
  ∀ q, (q + 1) * blockSize k ≤ bytes.length → blockText P k bytes q ≠ P.sentinel

/-- Block `q` is whole and is the first that decrypts to the sentinel (R136, R138). -/
structure FirstSentinelBlock (P : CipherPort) (k : Key) (bytes : List Byte) (q : Nat) : Prop where
  whole : (q + 1) * blockSize k ≤ bytes.length
  isSentinel : blockText P k bytes q = P.sentinel
  isFirst : ∀ i, i < q → blockText P k bytes i ≠ P.sentinel

theorem decryptBlocks_succ (P : CipherPort) (k : Key) (bytes : List Byte) (q : Nat) :
    decryptBlocks P k bytes (q + 1) = decryptBlocks P k bytes q ++ blockText P k bytes q := by
  simp [decryptBlocks, blockText, List.range_succ]

section

variable {P : CipherPort} {k : Key} {bytes : List Byte} {q : Nat}

theorem noSentinelBlock_or_exists_first (P : CipherPort) (k : Key) (bytes : List Byte) :
    NoSentinelBlock P k bytes ∨ ∃ q, FirstSentinelBlock P k bytes q := by
  by_cases h : ∃ q, (q + 1) * blockSize k ≤ bytes.length ∧ blockText P k bytes q = P.sentinel
  case pos =>
    obtain ⟨hwhole, hsentinel⟩ := Nat.find_spec h
    refine .inr ⟨Nat.find h, hwhole, hsentinel, fun i hi hearlier => Nat.find_min h hi ⟨?_, hearlier⟩⟩
    exact (Nat.mul_le_mul_right _ (by omega)).trans hwhole
  case neg => exact .inl fun q hwhole hsentinel => h ⟨q, hwhole, hsentinel⟩

/-- An iteration that starts at block `i` (R136 to R138). -/
theorem deframe_block (fuel i : Nat) (acc : Text) :
    deframe P k bytes (fuel + 1) (i * blockSize k) acc =
      if bytes.length < (i + 1) * blockSize k then none
      else if blockText P k bytes i = P.sentinel then some acc
      else deframe P k bytes fuel ((i + 1) * blockSize k) (acc ++ blockText P k bytes i) := by
  rw [deframe_succ, ← Nat.succ_mul]
  rfl

theorem NoSentinelBlock.deframe_eq_none (h : NoSentinelBlock P k bytes) (fuel i : Nat) (acc : Text) :
    deframe P k bytes fuel (i * blockSize k) acc = none := by
  induction fuel generalizing i acc with
  | zero => rfl
  | succ fuel ih =>
    rw [deframe_block]
    split
    case isTrue => rfl
    case isFalse hwhole => rw [if_neg (h i (Nat.le_of_not_lt hwhole)), ih]

/-- From any block up to the first sentinel block on, with the texts before it accumulated, the loop stops at the
sentinel. -/
theorem FirstSentinelBlock.deframe_eq_some (h : FirstSentinelBlock P k bytes q) (fuel i : Nat) (hi : i ≤ q)
    (hfuel : q < i + fuel) :
    deframe P k bytes fuel (i * blockSize k) (decryptBlocks P k bytes i) = some (decryptBlocks P k bytes q) := by
  induction fuel generalizing i with
  | zero => omega
  | succ fuel ih =>
    have hwhole : (i + 1) * blockSize k ≤ bytes.length := (Nat.mul_le_mul_right _ (by omega)).trans h.whole
    rw [deframe_block, if_neg (Nat.not_lt.mpr hwhole)]
    obtain rfl | hlt := Nat.eq_or_lt_of_le hi
    · exact if_pos h.isSentinel
    · rw [if_neg (h.isFirst i hlt), ← decryptBlocks_succ]
      exact ih (i + 1) hlt (by omega)

/-- The loop from the start, without a sentinel block. -/
theorem NoSentinelBlock.deframe_zero (h : NoSentinelBlock P k bytes) (fuel : Nat) :
    deframe P k bytes fuel 0 [] = none := by
  simpa only [Nat.zero_mul] using h.deframe_eq_none fuel 0 []

/-- The loop from the start, with a sentinel block within its bound. -/
theorem FirstSentinelBlock.deframe_zero (h : FirstSentinelBlock P k bytes q) {fuel : Nat} (hfuel : q < fuel) :
    deframe P k bytes fuel 0 [] = some (decryptBlocks P k bytes q) := by
  have hloop := h.deframe_eq_some fuel 0 (Nat.zero_le q) (by omega)
  rwa [Nat.zero_mul] at hloop

/-- The first sentinel block is one of the `floor(M / bs)` whole blocks (R141). -/
theorem FirstSentinelBlock.lt_div (h : FirstSentinelBlock P k bytes q) (hbs : 1 ≤ blockSize k) :
    q < bytes.length / blockSize k :=
  (Nat.le_div_iff_mul_le hbs).mpr h.whole

/-- The bound of the model's loop is above every whole block's number. -/
theorem FirstSentinelBlock.lt_length_succ (h : FirstSentinelBlock P k bytes q) (hbs : 1 ≤ blockSize k) :
    q < bytes.length + 1 :=
  ((h.lt_div hbs).trans_le (Nat.div_le_self _ _)).trans (Nat.lt_succ_self _)

end

/-- Settles O32: without a sentinel block no bound finds one, and the first is within either bound. -/
theorem deframingLoopIsBounded : Obligations.DeframingLoopIsBounded := by
  intro P k bytes fuel hbs hfuel
  obtain h | ⟨q, h⟩ := noSentinelBlock_or_exists_first P k bytes
  · rw [h.deframe_zero, h.deframe_zero]
  · rw [h.deframe_zero ((h.lt_div hbs).trans hfuel), h.deframe_zero (h.lt_length_succ hbs)]

/-! ### DECODE's result -/

/-- What DECODE writes to `OUT` and `STATUS`, given `DKEY` and the candidate byte stream (R140). -/
def decodeResult (P : CipherPort) (dkey : Option Key) (bytes : List Byte) : Text × BitVec 8 :=
  match dkey with
  | none => ([], 0x52)
  | some k =>
    if blockSize k = 0 then ([], 0x52)
    else
      match deframe P k bytes (bytes.length + 1) 0 [] with
      | none => ([], 0x32)
      | some text => (text, 0x01)

/-- DECODE writes its result to `OUT` and `STATUS`, and does nothing else (R140). -/
theorem decodeWith_eq_decodeResult (P : CipherPort) (s : State) :
    decodeWith P s = .next ((s.setOut (decodeResult P s.dkey s.candidateBytes).1).setStatus
      (decodeResult P s.dkey s.candidateBytes).2) := by
  rw [decodeWith_eq]
  cases s.dkey with
  | none => rfl
  | some k =>
    simp only [decodeResult]
    by_cases hbs : blockSize k = 0
    · rw [if_pos hbs, if_pos hbs]
      rfl
    · rw [if_neg hbs, if_neg hbs]
      cases deframe P k s.candidateBytes (s.candidateBytes.length + 1) 0 [] <;> rfl

/-- DECODE's whole effect over any cipher. -/
theorem execOver_decode_eq_decodeResult (P : CipherPort) (s : State) :
    execOver P .decode s = .next
      { s with
        out := (decodeResult P s.dkey s.candidateBytes).1
        status := (decodeResult P s.dkey s.candidateBytes).2 } :=
  decodeWith_eq_decodeResult P s

/-- DECODE's whole effect in this machine. -/
theorem exec_decode_eq_decodeResult (s : State) :
    exec .decode s = .next
      { s with
        out := (decodeResult Config.cipher s.dkey s.candidateBytes).1
        status := (decodeResult Config.cipher s.dkey s.candidateBytes).2 } := by
  rw [exec_eq_execOver, execOver_decode_eq_decodeResult]

theorem blockSize_pos {k : Key} (h : k.sizeBits ≠ 0) : 1 ≤ blockSize k := by
  have hround := blockSizeRoundsUp k
  omega

section

variable {P : CipherPort} {s : State} {k : Key} {bytes : List Byte} {q : Nat}

theorem NoSentinelBlock.decodeResult_eq (h : NoSentinelBlock P k bytes) (hbs : 1 ≤ blockSize k) :
    decodeResult P (some k) bytes = ([], 0x32) := by
  simp only [decodeResult]
  rw [if_neg (by omega), h.deframe_zero]

theorem FirstSentinelBlock.decodeResult_eq (h : FirstSentinelBlock P k bytes q) (hbs : 1 ≤ blockSize k) :
    decodeResult P (some k) bytes = (decryptBlocks P k bytes q, 0x01) := by
  simp only [decodeResult]
  rw [if_neg (by omega), h.deframe_zero (h.lt_length_succ hbs)]

theorem execOver_decode_of_noSentinelBlock (hk : s.dkey = some k) (hbs : 1 ≤ blockSize k)
    (h : NoSentinelBlock P k s.candidateBytes) :
    execOver P .decode s = .next { s with out := [], status := 0x32 } := by
  rw [execOver_decode_eq_decodeResult, hk, h.decodeResult_eq hbs]

theorem execOver_decode_of_firstSentinelBlock (hk : s.dkey = some k) (hbs : 1 ≤ blockSize k)
    (h : FirstSentinelBlock P k s.candidateBytes q) :
    execOver P .decode s = .next { s with out := decryptBlocks P k s.candidateBytes q, status := 0x01 } := by
  rw [execOver_decode_eq_decodeResult, hk, h.decodeResult_eq hbs]

end

/-- Settles O30: whether there is a sentinel block decides between the two outcomes. -/
theorem decodeRecoversTheMessage : Obligations.DecodeRecoversTheMessage := by
  intro s k hk hsize
  rw [exec_eq_execOver]
  obtain h | ⟨q, h⟩ := noSentinelBlock_or_exists_first Config.cipher k s.candidateBytes
  · exact ⟨_, execOver_decode_of_noSentinelBlock hk (blockSize_pos hsize) h, .inr ⟨h, rfl⟩⟩
  · exact ⟨_, execOver_decode_of_firstSentinelBlock hk (blockSize_pos hsize) h,
      .inl ⟨q, h.whole, h.isSentinel, h.isFirst, rfl⟩⟩

/-- Settles O31. -/
theorem noSentinelBlockRaisesSentinelNotFound : Obligations.NoSentinelBlockRaisesSentinelNotFound :=
  fun _ _ _ hk hsize h => execOver_decode_of_noSentinelBlock hk (blockSize_pos hsize) h

/-- Fewer bytes than a block are no whole block (R145). -/
theorem noSentinelBlock_of_length_lt {P : CipherPort} {k : Key} {bytes : List Byte}
    (h : bytes.length < blockSize k) : NoSentinelBlock P k bytes := by
  intro q hwhole
  have hblock : blockSize k ≤ (q + 1) * blockSize k := Nat.le_mul_of_pos_left _ q.succ_pos
  omega

/-- Settles O33: without a whole block there is no sentinel block. -/
theorem smallImageRaisesSentinelNotFound : Obligations.SmallImageRaisesSentinelNotFound := by
  intro s k hk hsize hsmall
  have hrun (P : CipherPort) : execOver P .decode s = .next { s with out := [], status := 0x32 } :=
    execOver_decode_of_noSentinelBlock hk (blockSize_pos hsize)
      (noSentinelBlock_of_length_lt (by rwa [candidateBytes_length]))
  exact ⟨by rw [exec_eq_execOver, hrun], hrun⟩

/-- The Bitstream is a function of the number of cells and their least-significant bits (R131). -/
theorem bitstream_congr {s u : State} (hsize : s.imgSize = u.imgSize)
    (hbits : ∀ a, a < s.imgSize → (s.img.read a).getLsbD 0 = (u.img.read a).getLsbD 0) :
    s.bitstream = u.bitstream := by
  rw [State.bitstream, State.bitstream, ← hsize]
  exact List.map_congr_left fun a ha => hbits a (List.mem_range.mp ha)

/-- Settles O34: the result is a function of the key and of the Bitstream. -/
theorem decodeReadsLeastSignificantBitsOnly : Obligations.DecodeReadsLeastSignificantBitsOnly := by
  intro s u hkey hsize hbits
  have hresult : decodeResult Config.cipher u.dkey u.candidateBytes =
      decodeResult Config.cipher s.dkey s.candidateBytes := by
    rw [State.candidateBytes, State.candidateBytes, bitstream_congr hsize hbits, hkey]
  exact ⟨_, _, exec_decode_eq_decodeResult s, by rw [exec_decode_eq_decodeResult u, hresult]⟩

/-- Settles O35: DECODE writes none of what its result depends on, and of the dimensions it reads the product alone. -/
theorem decodeIsRepeatable : Obligations.DecodeIsRepeatable := by
  intro s t h
  rw [exec_decode_eq_decodeResult] at h
  cases h
  refine ⟨exec_decode_eq_decodeResult _, fun w h hproduct => ?_⟩
  have hsize : State.imgSize { s with width := w, height := h } = s.imgSize := by
    rw [imgSize_eq, imgSize_eq, hproduct]
  have hbytes : State.candidateBytes { s with width := w, height := h } = s.candidateBytes :=
    congrArg regroup (bitstream_congr hsize fun _ _ => rfl)
  rw [exec_decode_eq_decodeResult, hbytes]

/-! ### The round trip -/

/-- A block of the first part of a byte sequence is a block of that part. -/
theorem blockAt_append {a : List Byte} {bs off : Nat} (b : List Byte) (h : off + bs ≤ a.length) :
    blockAt (a ++ b) bs off = blockAt a bs off := by
  rw [blockAt, List.drop_append_of_le_length (by omega),
    List.take_append_of_le_length (by rw [List.length_drop]; omega), blockAt]

/-- The block that stands right after the first part of a byte sequence. -/
theorem blockAt_append_append (a b c : List Byte) : blockAt (a ++ b ++ c) b.length a.length = b := by
  rw [blockAt, List.append_assoc, List.drop_left, List.take_left]

section

variable {P : CipherPort} {ke kd : Key} {a : List Byte} {i q : Nat} {m : Text}

theorem blockText_append (b : List Byte) (hi : i < q) (ha : q * blockSize kd ≤ a.length) :
    blockText P kd (a ++ b) i = blockText P kd a i := by
  have hblock : (i + 1) * blockSize kd ≤ q * blockSize kd := Nat.mul_le_mul_right _ hi
  rw [Nat.succ_mul] at hblock
  rw [blockText, blockAt_append b (by omega), blockText]

theorem decryptBlocks_append (b : List Byte) (ha : q * blockSize kd ≤ a.length) :
    decryptBlocks P kd (a ++ b) q = decryptBlocks P kd a q :=
  List.flatMap_congr fun _ hi => blockText_append b (List.mem_range.mp hi) ha

/-- Each block's text stands in the concatenated text. -/
theorem containsText_decryptBlocks (P : CipherPort) (k : Key) (bytes : List Byte) (hi : i < q) :
    containsText (decryptBlocks P k bytes q) (blockText P k bytes i) = true := by
  have hinfix : blockText P k bytes i <:+: decryptBlocks P k bytes q :=
    List.infix_of_mem_flatten (List.mem_map_of_mem (List.mem_range.mpr hi))
  obtain ⟨pre, post, h⟩ := hinfix
  exact (containsText_iff_append _ _).mpr ⟨pre, post, h.symm⟩

/-- The sentinel's block is the first sentinel block of a stream that starts with a payload: a message that does not
contain the sentinel has no block that decrypts to it (R14, R142). -/
theorem CipherFaithful.exists_firstSentinelBlock (hf : CipherFaithful P ke kd m)
    (hm : containsText m P.sentinel = false) (n n' : Nat) (tail : List Byte) :
    ∃ q, FirstSentinelBlock P kd (P.encrypt n ke m ++ P.encrypt n' ke P.sentinel ++ tail) q ∧
      decryptBlocks P kd (P.encrypt n ke m ++ P.encrypt n' ke P.sentinel ++ tail) q = m := by
  obtain ⟨-, hmessage, hsentinel⟩ := hf
  obtain ⟨q, hlen, htext⟩ := hmessage n
  obtain ⟨hslen, hstext⟩ := hsentinel n'
  refine ⟨q, ⟨?whole, ?isSentinel, fun i hi hearlier => ?isFirst⟩, ?text⟩
  case whole =>
    rw [List.length_append, List.length_append, hlen, hslen, Nat.succ_mul]
    exact Nat.le_add_right _ _
  case isSentinel => rw [blockText, ← hlen, ← hslen, blockAt_append_append, hstext]
  case isFirst =>
    rw [List.append_assoc, blockText_append _ hi hlen.ge] at hearlier
    have hcontains := containsText_decryptBlocks P kd (P.encrypt n ke m) hi
    rw [htext, hearlier, hm] at hcontains
    cases hcontains
  case text => rw [List.append_assoc, decryptBlocks_append _ hlen.ge, htext]

end

/-- Settles O36: the payload fits, the later state's byte stream starts with it (O24), and its first sentinel block is
the sentinel's own. -/
theorem roundTripRecoversTheMessage : Obligations.RoundTripRecoversTheMessage := by
  intro P s ke kd hwf hk hm hfaithful hroom
  have ⟨hbs, _, hsentinel⟩ := hfaithful
  have hfits : fits s.width.toNat s.height.toNat (framePayload P ke s.msg s).1.length = true := by
    obtain ⟨hslen, -⟩ := hsentinel (s.draws + 1)
    rw [fits_iff, framePayload_eq, List.length_append, hslen]
    exact hroom
  have hencode := encodeWith_of_fits hk hm hfits
  refine ⟨_, hencode, rfl, fun u hukey husize hucells => ?_⟩
  obtain ⟨-, htake⟩ := encodedPayloadReadsBack P s _ u ke hwf hk hencode rfl husize hucells
  obtain ⟨tail, hbytes⟩ := List.prefix_iff_eq_take.mpr htake.symm
  obtain ⟨q, hfirst, htext⟩ := hfaithful.exists_firstSentinelBlock hm s.draws (s.draws + 1) tail
  rw [framePayload_eq] at hbytes
  rw [hbytes] at hfirst htext
  exact ⟨_, execOver_decode_of_firstSentinelBlock hukey hbs hfirst, htext, rfl⟩

end Sys2Proof.Machine
end

section
/-! PROOFS. The statements about the exceptions (spec/60_exceptions.md): which errors each command raises, the cause of
each, what a raise leaves unchanged, and that no command depends on the error before it. -/

namespace Sys2Proof.Machine

/-! ### The errors of ENCODE and CAPCHK -/

/-- Settles O18: the key is tested first. -/
theorem encodeWithoutKeyRaisesBadOperand : Obligations.EncodeWithoutKeyRaisesBadOperand :=
  fun _ hk => encodeWith_of_no_key hk

/-- Settles O19: the message is tested next, and no other outcome has this word. -/
theorem forbiddenMessageRaisesForbiddenSubstring : Obligations.ForbiddenMessageRaisesForbiddenSubstring := by
  refine ⟨fun _ _ hk hc => encodeWith_of_forbidden hk hc, fun s t h hstatus => ?_⟩
  obtain ⟨-, rfl⟩ | ⟨k, hk, ⟨hc, rfl⟩ | ⟨-, -, rfl⟩ | ⟨-, -, rfl⟩⟩ := encodeWith_cases _ s t h
  case inr.inl => exact ⟨by simp [hk], hc⟩
  all_goals cases hstatus

/-- The capacity gate refuses exactly the lengths above the capacity (R102). -/
theorem fits_eq_false_iff (w h len : Nat) : fits w h len = false ↔ w * h * 3 / 8 < len := by
  rw [← Nat.not_le, ← fits_iff, Bool.not_eq_true]

/-- An ENCODE ends with `BadOperand` exactly without a key, and then `STATUS` alone changed (R155). -/
theorem encodeWith_badOperand_iff {P : CipherPort} {s t : State} (h : encodeWith P s = .next t) :
    (t.status = 0x52 ↔ s.ekey = none) ∧ (t.status = 0x52 → t = { s with status := 0x52 }) := by
  obtain ⟨hk, rfl⟩ | ⟨k, hk, ⟨-, rfl⟩ | ⟨-, -, rfl⟩ | ⟨-, -, rfl⟩⟩ := encodeWith_cases P s t h
  case inl => exact ⟨by simp [hk], fun _ => rfl⟩
  all_goals simp [hk]

/-- An ENCODE ends with `PayloadTooLarge` exactly when the first two tests pass and the payload is longer than the
capacity, and then `STATUS` and the count of draws changed (R152). -/
theorem encodeWith_payloadTooLarge_iff {P : CipherPort} {s t : State} (h : encodeWith P s = .next t) :
    (t.status = 0x22 ↔ ∃ k, s.ekey = some k ∧ containsText s.msg P.sentinel = false ∧
      s.width.toNat * s.height.toNat * 3 / 8 < (framePayload P k s.msg s).1.length) ∧
    (t.status = 0x22 → t = { s with status := 0x22, draws := s.draws + 2 }) := by
  simp only [← fits_eq_false_iff]
  obtain ⟨hk, rfl⟩ | ⟨k, hk, ⟨hc, rfl⟩ | ⟨-, hf, rfl⟩ | ⟨hc, hf, rfl⟩⟩ := encodeWith_cases P s t h
  case inr.inr.inr => exact ⟨⟨fun _ => ⟨k, hk, hc, hf⟩, fun _ => rfl⟩, fun _ => rfl⟩
  case inl => simp [hk]
  case inr.inl => simp [hc]
  case inr.inr.inl => simp [hk, hf]

/-- Settles O41: ENCODE over every cipher, and CAPCHK by what O11 says of it. -/
theorem payloadTooLargeCauses : Obligations.PayloadTooLargeCauses := by
  refine ⟨fun P s t h => encodeWith_payloadTooLarge_iff h, fun s t h => ?_⟩
  obtain ⟨t', ht', hcap, hstatus, hframe⟩ := capchkResult.2 s
  rw [ht'] at h
  cases h
  exact ⟨by rw [hstatus]; simp, fun hlarge => ⟨hcap, hframe.trans (by rw [hlarge])⟩⟩

/-! ### The errors of DECODE -/

/-- A key's blocks are empty exactly when its declared size is zero (R8, R134). -/
theorem blockSize_eq_zero_iff (k : Key) : blockSize k = 0 ↔ k.sizeBits = 0 := by
  have hround := blockSizeRoundsUp k
  omega

theorem decodeResult_of_no_usable_key {P : CipherPort} {dkey : Option Key} {bytes : List Byte}
    (hk : dkey = none ∨ ∃ k, dkey = some k ∧ k.sizeBits = 0) : decodeResult P dkey bytes = ([], 0x52) := by
  obtain rfl | ⟨k, rfl, hsize⟩ := hk
  · rfl
  · exact if_pos ((blockSize_eq_zero_iff k).mpr hsize)

/-- A DECODE without a usable key, over any cipher (R155, R162). -/
theorem execOver_decode_of_no_usable_key {P : CipherPort} {s : State}
    (hk : s.dkey = none ∨ ∃ k, s.dkey = some k ∧ k.sizeBits = 0) :
    execOver P .decode s = .next { s with out := [], status := 0x52 } := by
  rw [execOver_decode_eq_decodeResult, decodeResult_of_no_usable_key hk]

/-- Settles O29. -/
theorem decodeWithoutUsableKeyRaisesBadOperand : Obligations.DecodeWithoutUsableKeyRaisesBadOperand := by
  intro s hk
  rw [exec_eq_execOver, execOver_decode_of_no_usable_key hk]

/-- The three ways a DECODE can end, by their causes: no usable key, no sentinel block, a first sentinel block (R140). -/
theorem execOver_decode_cases {P : CipherPort} {s t : State} (h : execOver P .decode s = .next t) :
    ((s.dkey = none ∨ ∃ k, s.dkey = some k ∧ k.sizeBits = 0) ∧ t = { s with out := [], status := 0x52 }) ∨
    ∃ k, s.dkey = some k ∧ k.sizeBits ≠ 0 ∧
      ((NoSentinelBlock P k s.candidateBytes ∧ t = { s with out := [], status := 0x32 }) ∨
       ∃ q, FirstSentinelBlock P k s.candidateBytes q ∧
        t = { s with out := decryptBlocks P k s.candidateBytes q, status := 0x01 }) := by
  by_cases hk : s.dkey = none ∨ ∃ k, s.dkey = some k ∧ k.sizeBits = 0
  case pos =>
    rw [execOver_decode_of_no_usable_key hk] at h
    cases h
    exact .inl ⟨hk, rfl⟩
  case neg =>
    push Not at hk
    obtain ⟨k, hkey⟩ := Option.ne_none_iff_exists'.mp hk.1
    have hsize := hk.2 k hkey
    refine .inr ⟨k, hkey, hsize, ?_⟩
    obtain hno | ⟨q, hfirst⟩ := noSentinelBlock_or_exists_first P k s.candidateBytes
    · rw [execOver_decode_of_noSentinelBlock hkey (blockSize_pos hsize) hno] at h
      cases h
      exact .inl ⟨hno, rfl⟩
    · rw [execOver_decode_of_firstSentinelBlock hkey (blockSize_pos hsize) hfirst] at h
      cases h
      exact .inr ⟨q, hfirst, rfl⟩

/-- A first sentinel block is a sentinel block. -/
theorem FirstSentinelBlock.not_noSentinelBlock {P : CipherPort} {k : Key} {bytes : List Byte} {q : Nat}
    (h : FirstSentinelBlock P k bytes q) : ¬ NoSentinelBlock P k bytes :=
  fun hno => hno q h.whole h.isSentinel

/-- A DECODE ends with `BadOperand` exactly without a usable key, and then `OUT` is cleared (R155, R162). -/
theorem execOver_decode_badOperand_iff {P : CipherPort} {s t : State} (h : execOver P .decode s = .next t) :
    (t.status = 0x52 ↔ s.dkey = none ∨ ∃ k, s.dkey = some k ∧ k.sizeBits = 0) ∧
      (t.status = 0x52 → t = { s with out := [], status := 0x52 }) := by
  obtain ⟨hk, rfl⟩ | ⟨k, hk, hsize, ⟨-, rfl⟩ | ⟨q, -, rfl⟩⟩ := execOver_decode_cases h
  case inl => exact ⟨⟨fun _ => hk, fun _ => rfl⟩, fun _ => rfl⟩
  all_goals simp [hk, hsize]

/-- A DECODE ends with `SentinelNotFound` exactly with a usable key and without a sentinel block, and then `OUT` is
cleared (R153, R162). -/
theorem execOver_decode_sentinelNotFound_iff {P : CipherPort} {s t : State} (h : execOver P .decode s = .next t) :
    (t.status = 0x32 ↔ ∃ k, s.dkey = some k ∧ k.sizeBits ≠ 0 ∧ NoSentinelBlock P k s.candidateBytes) ∧
      (t.status = 0x32 → t = { s with out := [], status := 0x32 }) := by
  obtain ⟨hk, rfl⟩ | ⟨k, hk, hsize, ⟨hno, rfl⟩ | ⟨q, hfirst, rfl⟩⟩ := execOver_decode_cases h
  case inr.inl => exact ⟨⟨fun _ => ⟨k, hk, hsize, hno⟩, fun _ => rfl⟩, fun _ => rfl⟩
  case inl =>
    obtain hk | ⟨k, hk, hsize⟩ := hk
    · simp [hk]
    · simp [hk, hsize]
  case inr.inr => simp [hk, hfirst.not_noSentinelBlock]

/-- Settles O40. -/
theorem badOperandCauses : Obligations.BadOperandCauses :=
  ⟨fun _ _ h => encodeWith_badOperand_iff h, fun s _ h => execOver_decode_badOperand_iff (exec_eq_execOver _ s ▸ h)⟩

/-- Settles O42. -/
theorem sentinelNotFoundCause : Obligations.SentinelNotFoundCause := fun s _ h =>
  execOver_decode_sentinelNotFound_iff (exec_eq_execOver _ s ▸ h)

/-! ### Every command -/

/-- Settles O39: TOBITS, FROMBITS and CAPCHK by their equations, ENCODE and DECODE by the cases in which they end. -/
theorem outcomesOfEachCommand : Obligations.OutcomesOfEachCommand := by
  intro i s t h
  cases i with
  | tobits =>
    rw [exec_tobits] at h
    cases h
    rfl
  | frombits =>
    rw [exec_frombits] at h
    cases h
    rfl
  | capchk =>
    rw [exec_capchk] at h
    cases h
    exact (ite_eq_or_eq _ _ _).symm
  | encode =>
    obtain ⟨-, rfl⟩ | ⟨_, -, ⟨-, rfl⟩ | ⟨-, -, rfl⟩ | ⟨-, -, rfl⟩⟩ := encodeWith_cases _ s t h <;> simp
  | decode =>
    rw [exec_eq_execOver] at h
    obtain ⟨-, rfl⟩ | ⟨_, -, -, ⟨-, rfl⟩ | ⟨_, -, rfl⟩⟩ := execOver_decode_cases h <;> simp

/-- Settles O43: `STATUS` is none of what ENCODE reads (O25) or DECODE reads (O34), and the three other commands'
equations overwrite it. -/
theorem statusIsNotSticky : Obligations.StatusIsNotSticky := by
  intro i s v
  cases i with
  | tobits => rw [exec_tobits, exec_tobits]
  | frombits => rw [exec_frombits, exec_frombits]
  | capchk => rw [exec_capchk, exec_capchk]; rfl
  | encode =>
    obtain ⟨_, _, _, hs, hv⟩ := encodeReadsItsOperandsOnly s { s with status := v } rfl rfl rfl rfl rfl rfl
    exact hv.trans hs.symm
  | decode =>
    obtain ⟨_, _, hs, hv⟩ := decodeReadsLeastSignificantBitsOnly s { s with status := v } rfl rfl fun _ _ => rfl
    exact hv.trans hs.symm

end Sys2Proof.Machine
end

section
/-! PROOFS. The statements about reset (spec/70_reset_and_hazards.md): what the host's reset restores (R180), and what
each command does right after it (R184). -/

namespace Sys2Proof.Machine

/-- Settles O45: the step performs the pending reset (O5), which keeps the three fields of the model's own. -/
theorem hostResetRestoresResetValues : Obligations.HostResetRestoresResetValues := by
  intro s rest hp
  calc step s
      = performAction exec .reset (s.setPending rest) := runNext_cons exec s .reset rest hp
    _ = .next { State.reset with pending := rest, reply := s.reply, draws := s.draws } := rfl

/-- A step whose next action writes a command's word to `CMD` is that command (R72). -/
theorem step_withFetchWord {nbits w : Nat} {i : Instr} (s : State) (h : decode (tableWord nbits w) = .ok i) :
    step (s.withFetchWord nbits w) = exec i s := by
  rw [State.withFetchWord, step_placeCommand, issueCommand_of_decode exec _ i s h]

/-- Settles O46: each word decodes to its command, and each command's own equation is taken at the reset values, where
`BYTE` and `BITS` are zeros, there is no image and no key is written (R44). -/
theorem commandsRightAfterReset : Obligations.CommandsRightAfterReset := by
  refine ⟨?tobits, ?frombits, ?capchk, ?encode, ?decode⟩
  case tobits =>
    rw [step_withFetchWord State.reset rfl, exec_tobits]
    rfl
  case frombits =>
    rw [step_withFetchWord State.reset rfl, exec_frombits]
    rfl
  case capchk =>
    rw [step_withFetchWord State.reset rfl, exec_capchk]
    rfl
  case encode =>
    rw [step_withFetchWord State.reset rfl]
    exact encodeWithoutKeyRaisesBadOperand State.reset rfl
  case decode =>
    rw [step_withFetchWord State.reset rfl]
    exact decodeWithoutUsableKeyRaisesBadOperand State.reset (.inl rfl)

end Sys2Proof.Machine
end
